-- ==== Sys2Proof/Word.lean ====
section
/-! DEFINITION. The units the block counts in: bytes, byte sequences, and the 32-bit words of the hash. -/

namespace Sys2Proof

/-- A byte, 8 bits (R6 of 00_scope.md). -/
abbrev Byte := BitVec 8

/-- A byte sequence: a finite list of bytes, index 0 first (section 6 of 00_scope.md). -/
abbrev Bytes := List Byte

/-- The 32-bit words SHA-256 works on (R137 of 42_checksum.md). -/
abbrev Word32 := BitVec 32

end Sys2Proof
end

