-- ==== Sys2Proof/Config.lean ====
section
/-! DEFINITION. The parameters of the block (R6 of 00_scope.md): the fixed ones as constants, the one open one,
PBUF_CAP, as a field that every state carries, so that a statement over all states holds for every value of it. -/

namespace Sys2Proof

/-- The open parameters of one block. -/
structure Config where
  /-- `PBUF_CAP`, the capacity of the payload buffer in bytes: 0 to 2^32 - 1 (R6, decision D7). -/
  pbufCap : Fin (2 ^ 32)
deriving DecidableEq, Repr

namespace Config

/-- `NAME_LEN`, bytes of the command field of a frame (R6). -/
abbrev nameLen : Nat := 12

/-- `HDR_LEN`, bytes of the frame header (R6). -/
abbrev hdrLen : Nat := 24

/-- `ADDR_LEN`, bytes of an address record (R6). -/
abbrev addrLen : Nat := 26

/-- `REC_LEN`, bytes of an inventory record (R6). -/
abbrev recLen : Nat := 36

/-- `HASH_LEN`, bytes of an inventory hash (R6). -/
abbrev hashLen : Nat := 32

/-- `MAX_COUNT`, the largest one-byte length or count (R6). -/
abbrev maxCount : Nat := 255

/-- `RESET_MAGIC` (R6, decision D8). -/
abbrev resetMagic : BitVec 32 := 0xD9B4BEF9#32

/-- The parameter value `State.reset` carries. DESIGN CHOICE (log entry 1, unsafe if a statement rests on it):
the spec leaves PBUF_CAP open; this is the largest legal value. -/
def atReset : Config := ⟨4294967295, by decide⟩

end Config

end Sys2Proof
end

