-- ==== Sys2Proof/Machine/Bytes.lean ====
section
/-! DEFINITION. The notation of section 6 of 00_scope.md for byte order, slices and signed readings. -/

namespace Sys2Proof.Machine

/-- `le_N(v)`: N bytes, least significant first; byte k is floor(v / 2^(8k)) mod 256. -/
def le : Nat → Nat → Bytes
  | 0, _ => []
  | n + 1, v => BitVec.ofNat 8 v :: le n (v / 256)

/-- `be_N(v)`: N bytes, most significant first. -/
def be (n v : Nat) : Bytes := (le n v).reverse

/-- `le_dec(s)`: the sum over k of s[k] * 2^(8k). -/
def leDec : Bytes → Nat
  | [] => 0
  | b :: s => b.toNat + 256 * leDec s

/-- `be_dec(s)`: the first byte is the most significant. -/
def beDec (s : Bytes) : Nat := leDec s.reverse

/-- `s[i..j]`: the bytes at indices i to j - 1. -/
def slice (s : Bytes) (i j : Nat) : Bytes := (s.drop i).take (j - i)

/-- `twos_N(i)`, the two's-complement pattern of i as a uN: i mod 2^N. -/
def twos (n : Nat) (i : Int) : Nat := (i % (2 ^ n : Int)).toNat

/-- The signed reading of an N-bit value: v if v < 2^(N-1), else v - 2^N (R62 of 30_encoding.md). -/
def signed (n v : Nat) : Int := if v < 2 ^ (n - 1) then (v : Int) else (v : Int) - 2 ^ n

/-- `readUNLE` of R108 (40_primitive_codec.md): a reader for laws, no command of the block. -/
def readUnsignedLE (s : Bytes) : Nat := leDec s

/-- `readINLE` of R108 (40_primitive_codec.md): a reader for laws, no command of the block. -/
def readSignedLE (s : Bytes) : Int := signed (8 * s.length) (leDec s)

end Sys2Proof.Machine
end

