-- ==== Sys2Proof/Syntax.lean ====
section
/-! DEFINITION. The thirteen commands of BNP-SER (R64 of 30_encoding.md) with their operands as the command rules
type them: unsigned numbers of a stated width, signed numbers as integers, byte sequences as lists. -/

namespace Sys2Proof

/-- One inventory record, a (type tag, hash) pair (R36 of 10_state.md, R156 of 43_varlen_fields.md). -/
structure InvRecord where
  /-- the type tag, an uninterpreted u32 (R159) -/
  tag : BitVec 32
  /-- the hash, 32 bytes (R156) -/
  hash : Bytes
deriving DecidableEq, Repr

/-- A command: one constructor per row of opcode_table.json. -/
inductive Instr where
  /-- `CLR` (R210) -/
  | clr
  /-- `SETMAGIC m` (R211) -/
  | setmagic (m : BitVec 32)
  /-- `WU16 v` (R101) -/
  | wu16 (v : BitVec 16)
  /-- `WU32 v` (R102) -/
  | wu32 (v : BitVec 32)
  /-- `WU64 v` (R103) -/
  | wu64 (v : BitVec 64)
  /-- `WI32 i` (R104), `i` in i32 -/
  | wi32 (i : Int)
  /-- `WI64 i` (R105), `i` in i64 -/
  | wi64 (i : Int)
  /-- `RAW s` (R106) -/
  | raw (s : Bytes)
  /-- `ADDR services, address, port` (R120) -/
  | addr (services : BitVec 64) (address : Bytes) (port : BitVec 16)
  /-- `LPB s` (R151) -/
  | lpb (s : Bytes)
  /-- `UAG t` (R153) -/
  | uag (t : Bytes)
  /-- `INVV r_0, ..., r_(n-1)` (R156) -/
  | invv (records : List InvRecord)
  /-- `FRAME name` (R190) -/
  | frame (name : Bytes)
deriving DecidableEq, Repr

end Sys2Proof
end

