-- ==== Sys2Proof/WellFormed.lean ====
section
/-! DEFINITION. Which terms of `Instr` a packet can carry. These are exactly the operand bounds of the packet fields
(R61, R62 of 30_encoding.md; the list of what the assembler refuses in R68). The limits the commands themselves
enforce by a fault (a name over 12 bytes, a field over 255, more than 255 records) are not among them. -/

namespace Sys2Proof

/-- `i` is in iN, that is -2^(N-1) to 2^(N-1) - 1 (section 6 of 00_scope.md). -/
abbrev InSigned (n : Nat) (i : Int) : Prop := -(2 ^ (n - 1) : Int) ≤ i ∧ i < (2 ^ (n - 1) : Int)

/-- A record's hash is exactly 32 bytes (R156 of 43_varlen_fields.md). -/
abbrev InvRecord.WellFormed (r : InvRecord) : Prop := r.hash.length = Config.hashLen

/-- The operands fit the packet's fields (R61, R62, R68 of 30_encoding.md). -/
def Instr.wellFormed : Instr → Bool
  | .clr => true
  | .setmagic _ => true
  | .wu16 _ => true
  | .wu32 _ => true
  | .wu64 _ => true
  | .wi32 i => decide (InSigned 32 i)
  | .wi64 i => decide (InSigned 64 i)
  | .raw s => decide (s.length < 2 ^ 32)
  | .addr _ address _ => decide (address.length = 16)
  | .lpb s => decide (s.length < 2 ^ 16)
  | .uag t => decide (t.length < 2 ^ 16)
  | .invv records => decide (records.length < 2 ^ 16) && records.all fun r => decide r.WellFormed
  | .frame name => decide (name.length < 2 ^ 8)

/-- `i.wellFormed` as a proposition. -/
abbrev Instr.WellFormed (i : Instr) : Prop := i.wellFormed = true

end Sys2Proof
end

