-- ==== Sys2Proof/Decode.lean ====
section
/-! DEFINITION. Command packets (30_encoding.md): the opcode map, packet lengths, the decoder, the encoder, the
cutting of a byte stream into packets, and the reading of the opcode table's words. -/

namespace Sys2Proof

open Machine

/-- The thirteen assigned opcodes (R64). -/
inductive Op where
  | clr | setmagic | wu16 | wu32 | wu64 | wi32 | wi64 | raw | addr | lpb | uag | invv | frame
deriving DecidableEq, Repr

/-- The nine packet formats (R61). -/
inductive Format where
  | F0 | FI2 | FI4 | FI8 | FV32 | FA | FV16 | FR16 | FV8
deriving DecidableEq, Repr

/-- Every assigned opcode, in the order of R64's table. -/
def Op.all : List Op :=
  [.clr, .setmagic, .wu16, .wu32, .wu64, .wi32, .wi64, .raw, .addr, .lpb, .uag, .invv, .frame]

/-- The opcode byte (R64). -/
def Op.code : Op → Byte
  | .clr => 0x01#8
  | .setmagic => 0x02#8
  | .wu16 => 0x10#8
  | .wu32 => 0x11#8
  | .wu64 => 0x12#8
  | .wi32 => 0x13#8
  | .wi64 => 0x14#8
  | .raw => 0x18#8
  | .addr => 0x20#8
  | .lpb => 0x30#8
  | .uag => 0x31#8
  | .invv => 0x32#8
  | .frame => 0x40#8

/-- The format of a command's packet (R61, R64). -/
def Op.format : Op → Format
  | .clr => .F0
  | .setmagic => .FI4
  | .wu16 => .FI2
  | .wu32 => .FI4
  | .wu64 => .FI8
  | .wi32 => .FI4
  | .wi64 => .FI8
  | .raw => .FV32
  | .addr => .FA
  | .lpb => .FV16
  | .uag => .FV16
  | .invv => .FR16
  | .frame => .FV8

/-- The opcode a byte stands for: all eight bits are compared, every other value is unassigned (R64, R67). -/
def Op.ofByte (b : Byte) : Option Op := Op.all.find? fun o => o.code == b

/-- The length a packet of this format must have, from its length or count field; none where the packet is too short
to hold that field (R65). -/
def Format.packetLength (f : Format) (pkt : Bytes) : Option Nat :=
  match f with
  | .F0 => some 1
  | .FI2 => some 3
  | .FI4 => some 5
  | .FI8 => some 9
  | .FA => some 27
  | .FV32 => if pkt.length < 5 then none else some (5 + beDec (slice pkt 1 5))
  | .FV16 => if pkt.length < 3 then none else some (3 + beDec (slice pkt 1 3))
  | .FR16 => if pkt.length < 3 then none else some (3 + Config.recLen * beDec (slice pkt 1 3))
  | .FV8 => if pkt.length < 2 then none else some (2 + beDec (slice pkt 1 2))

/-- `PktLen` (R65); none also where byte 0 is missing or unassigned. -/
def pktLen (pkt : Bytes) : Option Nat :=
  match pkt with
  | [] => none
  | b :: _ =>
    match Op.ofByte b with
    | none => none
    | some o => o.format.packetLength pkt

/-- `n` inventory records laid end to end: 4 bytes big-endian tag, 32 bytes hash each (R61, R62). -/
def decodeRecords : Nat → Bytes → List InvRecord
  | 0, _ => []
  | n + 1, s =>
    ⟨BitVec.ofNat 32 (beDec (slice s 0 4)), slice s 4 Config.recLen⟩ :: decodeRecords n (s.drop Config.recLen)

/-- The operands of a packet of the right length, read from its fields (R61, R62, R63). -/
def Op.operands (o : Op) (pkt : Bytes) : Instr :=
  match o with
  | .clr => .clr
  | .setmagic => .setmagic (BitVec.ofNat 32 (beDec (slice pkt 1 5)))
  | .wu16 => .wu16 (BitVec.ofNat 16 (beDec (slice pkt 1 3)))
  | .wu32 => .wu32 (BitVec.ofNat 32 (beDec (slice pkt 1 5)))
  | .wu64 => .wu64 (BitVec.ofNat 64 (beDec (slice pkt 1 9)))
  | .wi32 => .wi32 (signed 32 (beDec (slice pkt 1 5)))
  | .wi64 => .wi64 (signed 64 (beDec (slice pkt 1 9)))
  | .raw => .raw (slice pkt 5 (5 + beDec (slice pkt 1 5)))
  | .addr =>
    .addr (BitVec.ofNat 64 (beDec (slice pkt 1 9))) (slice pkt 9 25) (BitVec.ofNat 16 (beDec (slice pkt 25 27)))
  | .lpb => .lpb (slice pkt 3 (3 + beDec (slice pkt 1 3)))
  | .uag => .uag (slice pkt 3 (3 + beDec (slice pkt 1 3)))
  | .invv => .invv (decodeRecords (beDec (slice pkt 1 3)) (pkt.drop 3))
  | .frame => .frame (slice pkt 2 (2 + beDec (slice pkt 1 2)))

/-- The three answers of `Decode` (R66). -/
inductive DecodeResult where
  /-- empty packet or unassigned opcode (R67 a) -/
  | illegal
  /-- assigned opcode, wrong packet length (R67 b) -/
  | malformed
  /-- a command with its operands -/
  | command (i : Instr)
deriving DecidableEq, Repr

/-- `Decode` (R66), total on every byte sequence. -/
def decode (pkt : Bytes) : DecodeResult :=
  match pkt with
  | [] => .illegal
  | b :: _ =>
    match Op.ofByte b with
    | none => .illegal
    | some o =>
      match o.format.packetLength pkt with
      | none => .malformed
      | some n => if n = pkt.length then .command (o.operands pkt) else .malformed

/-- The opcode of a command. -/
def Instr.op : Instr → Op
  | .clr => .clr
  | .setmagic _ => .setmagic
  | .wu16 _ => .wu16
  | .wu32 _ => .wu32
  | .wu64 _ => .wu64
  | .wi32 _ => .wi32
  | .wi64 _ => .wi64
  | .raw _ => .raw
  | .addr _ _ _ => .addr
  | .lpb _ => .lpb
  | .uag _ => .uag
  | .invv _ => .invv
  | .frame _ => .frame

/-- One inventory record in a packet: big-endian tag, then the hash (R61). -/
def encodeRecord (r : InvRecord) : Bytes := be 4 r.tag.toNat ++ r.hash

/-- The bytes after the opcode (the "Encoding" line of each command's rule; R61 to R63). -/
def encodeFields : Instr → Bytes
  | .clr => []
  | .setmagic m => be 4 m.toNat
  | .wu16 v => be 2 v.toNat
  | .wu32 v => be 4 v.toNat
  | .wu64 v => be 8 v.toNat
  | .wi32 i => be 4 (twos 32 i)
  | .wi64 i => be 8 (twos 64 i)
  | .raw s => be 4 s.length ++ s
  | .addr services address port => be 8 services.toNat ++ address ++ be 2 port.toNat
  | .lpb s => be 2 s.length ++ s
  | .uag t => be 2 t.length ++ t
  | .invv records => be 2 records.length ++ records.flatMap encodeRecord
  | .frame name => be 1 name.length ++ name

/-- The packet of a command; meant for well-formed commands. -/
def encode (i : Instr) : Bytes := i.op.code :: encodeFields i

/-- The cutting of R65, with a bound on the number of packets. -/
def cutWithin : Nat → Bytes → Option (List Bytes)
  | 0, s => if s = [] then some [] else none
  | n + 1, s =>
    if s = [] then some []
    else
      match pktLen s with
      | none => none
      | some k => if s.length < k then none else (cutWithin n (s.drop k)).map (s.take k :: ·)

/-- Cut a byte stream into packets (R65): none where the stream's next byte is no assigned opcode, `PktLen` is none, or
fewer bytes remain than it says. A packet has at least one byte, so the stream's length bounds their number. -/
def cut (s : Bytes) : Option (List Bytes) := cutWithin s.length s

/-- The packet of a word of the opcode table: its `nbits / 8` bytes, the least significant first (the table numbers
bit 0 as the lowest bit of byte 0), and zeros for every further byte its format asks for. -/
def tablePacket (nbits w : Nat) : Bytes :=
  let known := le (nbits / 8) w
  match pktLen (known ++ List.replicate 4 0#8) with
  | none => known
  | some n => known ++ List.replicate (n - known.length) 0#8

/-- What the decoder reads from a word of the opcode table. -/
def decodeTableWord (nbits w : Nat) : Option Instr :=
  match decode (tablePacket nbits w) with
  | .command i => some i
  | .illegal => none
  | .malformed => none

end Sys2Proof
end

