-- ==== Sys2Proof/Machine/State.lean ====
section
/-! DEFINITION. The state of the block (10_state.md), the records of its ports, and the state after reset. -/

namespace Sys2Proof.Machine

/-- The six latched fault codes (R222 of 60_exceptions.md). With `none` for 0 they are the seven legal values of ERR
(R25 of 10_state.md, U8 of 93_implementation_defined.md). -/
inductive FaultCode where
  /-- `E_CMDNAME`: FRAME with a name over 12 bytes -/
  | cmdName
  /-- `E_INVCOUNT`: INVV with more than 255 records -/
  | invCount
  /-- `E_FIELDLEN`: LPB or UAG whose transmitted string is over 255 bytes -/
  | fieldLen
  /-- `E_MALFORMED`: an assigned opcode with the wrong packet length -/
  | malformed
  /-- `E_OVERFLOW`: an append that does not fit in PBUF -/
  | overflow
  /-- `E_ILLEGAL`: an empty packet or an unassigned opcode -/
  | illegal
deriving DecidableEq, Repr

/-- The eight responses (R221, R222 of 60_exceptions.md). -/
inductive Response where
  /-- `OK` -/
  | ok
  /-- the code of the fault this packet raised -/
  | fault (c : FaultCode)
  /-- `E_LATCHED`, a response only, never stored -/
  | latched
deriving DecidableEq, Repr

/-- What the outside world does next at a port (R27 of 10_state.md; R266, R267 of 70_reset_and_hazards.md). -/
inductive PortEvent where
  /-- the host presents one command packet on the command port -/
  | packet (pkt : Bytes)
  /-- the host drives the reset input -/
  | resetInput
  /-- the transport removes the frame at the head of TXQ, if there is one -/
  | takeFrame
deriving DecidableEq, Repr

/-- The state of one block, with its parameter and its ports. -/
structure State where
  /-- the parameters of R6 (00_scope.md); no step changes them -/
  cfg : Config
  /-- `PBUF`, the payload under construction (R22) -/
  pbuf : Bytes
  /-- `TXQ`, the frames not yet taken, head first (R23) -/
  txq : List Bytes
  /-- `MAGIC`, control register 0 (R24) -/
  magic : BitVec 32
  /-- `ERR`, control register 1, the fault latch; none is 0 (R25) -/
  err : Option FaultCode
  /-- `pc`, the packets completed since reset (R21) -/
  pc : Nat
  /-- the port events still to come, the next one first (log entry 2) -/
  inputs : List PortEvent
  /-- the responses produced since reset, oldest first (R221; log entry 3) -/
  responses : List Response
  /-- the frames the transport has taken since reset, oldest first (R267; log entry 3) -/
  sent : List Bytes
deriving DecidableEq, Repr

/-- The reasons a step stops with a fault of the model: NONE. Every fault of the spec is a next state (R224 of
60_exceptions.md), every step terminates and none is stuck (R273 of 70_reset_and_hazards.md), so the type has no
constructor and nothing can raise one (safe: the spec gives every packet its outcome). -/
inductive Fault
deriving DecidableEq, Repr

/-- The reasons the model refuses an instruction. -/
inductive Refusal where
  /-- raised by an arm of `exec` for an instruction that has no meaning in the model yet (safe: nothing can be proved of
  what it does); no arm raises it -/
  | notModelled (mnemonic : String)
deriving DecidableEq, Repr

/-- The state after reset of a block with the parameters `cfg` (R33 of 10_state.md, R260 of
70_reset_and_hazards.md), with nothing pending at its ports. -/
def State.resetOf (cfg : Config) : State where
  cfg := cfg
  pbuf := []
  txq := []
  magic := Config.resetMagic
  err := none
  pc := 0
  inputs := []
  responses := []
  sent := []

/-- The state right after reset. Its PBUF_CAP is log entry 1's. -/
def State.reset : State := State.resetOf Config.atReset

end Sys2Proof.Machine
end

