-- ==== Sys2Proof/Machine/Flags.lean ====
section
/-! DEFINITION. The block's one status flag, the fault latch ERR (R25 of 10_state.md), the codes of R222
(60_exceptions.md), and the status outputs (R27 of 10_state.md). No command has a flag as a side effect but this latch. -/

namespace Sys2Proof.Machine

/-- The numeric value of a fault code (R222). -/
def FaultCode.code : FaultCode → Byte
  | .cmdName => 0x01#8
  | .invCount => 0x02#8
  | .fieldLen => 0x03#8
  | .malformed => 0x04#8
  | .overflow => 0x05#8
  | .illegal => 0x06#8

/-- The response byte (R221, R222). -/
def Response.code : Response → Byte
  | .ok => 0x00#8
  | .fault c => c.code
  | .latched => 0x07#8

namespace State

/-- `ERR` as the byte ERR[7:0] (R25). -/
def errOut (s : State) : Byte :=
  match s.err with
  | none => 0x00#8
  | some c => c.code

/-- A fault is latched: ERR is not 0 (R226). -/
abbrev Latched (s : State) : Prop := s.err ≠ none

/-- No fault is latched: ERR is 0. -/
abbrev Unlatched (s : State) : Prop := s.err = none

/-- `PLEN`, control register 2: the length of PBUF (R26). -/
def plen (s : State) : BitVec 32 := BitVec.ofNat 32 s.pbuf.length

end State

/-- The three status outputs (R27, R266). -/
structure Status where
  /-- CSR 0 -/
  magic : BitVec 32
  /-- CSR 1 -/
  err : Byte
  /-- CSR 2 -/
  plen : BitVec 32
deriving DecidableEq, Repr

/-- What the host reads at the status outputs between two steps; a function of the state, so it has no side effect
(R46 of 20_memory.md). -/
def State.status (s : State) : Status := ⟨s.magic, s.errOut, s.plen⟩

end Sys2Proof.Machine
end

