-- ==== Sys2Proof/Machine/Operands.lean ====
section
/-! DEFINITION. How each operand is laid out in wire bytes: the output of every appending command as a function of its
operands (R40, R45 of 20_memory.md and the commands' own rules), and the 12-byte name field. -/

namespace Sys2Proof.Machine

/-- The delimiter of a user agent, the ASCII solidus `/` (R153 of 43_varlen_fields.md; its code is G5, log entry 12). -/
def solidus : Byte := 0x2F#8

/-- The 26-byte address record: services little-endian, address verbatim, port BIG-endian (R120, R121 of
41_network_address.md). -/
def addrRecord (services : BitVec 64) (address : Bytes) (port : BitVec 16) : Bytes :=
  le 8 services.toNat ++ address ++ be 2 port.toNat

/-- A one-byte length and the bytes it counts (R151 of 43_varlen_fields.md); meant for at most 255 bytes. -/
def lengthPrefixed (s : Bytes) : Bytes := BitVec.ofNat 8 s.length :: s

/-- The user agent as transmitted: the inner text between two delimiters (R153). -/
def userAgent (t : Bytes) : Bytes := solidus :: t ++ [solidus]

/-- One inventory record on the wire: tag little-endian, hash verbatim (R156, R157). -/
def inventoryRecord (r : InvRecord) : Bytes := le 4 r.tag.toNat ++ r.hash

/-- A one-byte count and the records it counts (R156); meant for at most 255 records. -/
def inventoryVector (records : List InvRecord) : Bytes :=
  BitVec.ofNat 8 records.length :: records.flatMap inventoryRecord

/-- `pad12(s)`: NUL bytes up to 12 (section 6 of 00_scope.md, R192 of 45_envelope.md); meant for at most 12 bytes. -/
def pad12 (s : Bytes) : Bytes := s ++ List.replicate (Config.nameLen - s.length) 0x00#8

end Sys2Proof.Machine
end

