-- ==== Sys2Proof/Machine/Ops.lean ====
section
/-! DEFINITION. The shared operations of the command rules: the response, taking a fault and the way out of it, the
append primitive, reading PBUF, emitting a frame. -/

namespace Sys2Proof.Machine

/-- The outcome type of every meaning. -/
abbrev Result := Host.Outcome State Fault Refusal

/-- `PBUF_CAP` as a number (R6 of 00_scope.md). -/
def State.cap (s : State) : Nat := s.cfg.pbufCap.val

/-- `respond c`: the one response byte of this packet (R221 of 60_exceptions.md). -/
def State.respond (r : Response) (s : State) : State := { s with responses := s.responses ++ [r] }

/-- The command had its whole effect: respond OK (R8 of 00_scope.md, R221). -/
def succeed (s : State) : Result := .next (s.respond .ok)

/-- `raise Fault(code)`, the entry of every fault: PBUF emptied, ERR latched, the code responded, everything else as it
was (R224 of 60_exceptions.md). The step advances pc as for any packet. -/
def raiseFault (c : FaultCode) (s : State) : Result :=
  .next ({ s with pbuf := [], err := some c }.respond (.fault c))

/-- The way out of the latched state, what CLR writes: PBUF empty, ERR 0 (R210 of 46_control.md, R227 of
60_exceptions.md). -/
def clearFault (s : State) : State := { s with pbuf := [], err := none }

/-- `Append(s)`: all of the bytes at the end of PBUF, or none of them and E_OVERFLOW (R41 of 20_memory.md). -/
def append (bytes : Bytes) (s : State) : Result :=
  if s.cap < s.pbuf.length + bytes.length then raiseFault .overflow s
  else succeed { s with pbuf := s.pbuf ++ bytes }

/-- The byte of PBUF at an address, none outside 0 .. |PBUF| - 1 (R29 of 10_state.md). -/
def State.readByte (s : State) (a : Nat) : Option Byte := s.pbuf[a]?

/-- `MemRead(addr, n)`: PBUF[addr .. addr + n], defined for addr + n <= |PBUF| (section 6 of 00_scope.md). -/
def memRead (addr n : Nat) (s : State) : Option Bytes :=
  if addr + n ≤ s.pbuf.length then some (slice s.pbuf addr (addr + n)) else none

/-- `MemWrite(addr, n, v)`: defined only for addr = |PBUF| and n = |v|, where it is `Append(v)` (section 6 of
00_scope.md). -/
def memWrite (addr n : Nat) (v : Bytes) (s : State) : Option Result :=
  if addr = s.pbuf.length ∧ n = v.length then some (append v s) else none

/-- `Emit(f)`: one whole frame at the tail of TXQ (section 6 of 00_scope.md, R23 of 10_state.md). -/
def emit (f : Bytes) (s : State) : State := { s with txq := s.txq ++ [f] }

/-- PBUF's form as memory: a byte sequence no longer than PBUF_CAP (R22 of 10_state.md). A list of bytes addressed by
its indexes is canonical by itself: equal buffers are equal lists. -/
def Memory.wf (m : Bytes) (cap : Nat) : Bool := decide (m.length ≤ cap)

/-- `pc <- pc + 1`, its only assignment but reset (R8, R21). -/
def State.advancePc (s : State) : State := { s with pc := s.pc + 1 }

/-- Reset: every piece of state at its reset value, the parameters and what the outside does next unchanged (R260 of
70_reset_and_hazards.md). -/
def resetBlock (s : State) : State := { State.resetOf s.cfg with inputs := s.inputs }

/-- The transport removes the frame at the head of TXQ, if there is one (R267 of 70_reset_and_hazards.md). -/
def transportTake (s : State) : State :=
  match s.txq with
  | [] => s
  | f :: rest => { s with txq := rest, sent := s.sent ++ [f] }

/-- Every frame emitted since reset, in order, whether or not the transport has taken it (R264, R267). -/
def State.emitted (s : State) : List Bytes := s.sent ++ s.txq

end Sys2Proof.Machine
end

