-- ==== Sys2Proof/Machine/Address.lean ====
section
/-! DEFINITION. The network-address packer: ADDR (41_network_address.md). -/

namespace Sys2Proof.Machine

/-- `ADDR services, address, port`: append the 26-byte record, whose port alone is big-endian (R120, R121). -/
def execAddr (services : BitVec 64) (address : Bytes) (port : BitVec 16) (s : State) : Result :=
  append (addrRecord services address port) s

end Sys2Proof.Machine
end

