-- ==== Sys2Proof/Machine/Codec.lean ====
section
/-! DEFINITION. The primitive codec: WU16, WU32, WU64, WI32, WI64, RAW (40_primitive_codec.md). Each is one call of the
append primitive (R100). -/

namespace Sys2Proof.Machine

/-- `WU16 v`: Append(le_2(v)) (R101). -/
def execWu16 (v : BitVec 16) (s : State) : Result := append (le 2 v.toNat) s

/-- `WU32 v`: Append(le_4(v)) (R102). -/
def execWu32 (v : BitVec 32) (s : State) : Result := append (le 4 v.toNat) s

/-- `WU64 v`: Append(le_8(v)) (R103). -/
def execWu64 (v : BitVec 64) (s : State) : Result := append (le 8 v.toNat) s

/-- `WI32 i`: Append(le_4(twos_32(i))) (R104). -/
def execWi32 (i : Int) (s : State) : Result := append (le 4 (twos 32 i)) s

/-- `WI64 i`: Append(le_8(twos_64(i))) (R105). -/
def execWi64 (i : Int) (s : State) : Result := append (le 8 (twos 64 i)) s

/-- `RAW s`: Append(s), verbatim (R106). -/
def execRaw (bytes : Bytes) (s : State) : Result := append bytes s

end Sys2Proof.Machine
end

