-- ==== Sys2Proof/Machine/Control.lean ====
section
/-! DEFINITION. The control commands: CLR, SETMAGIC (46_control.md). -/

namespace Sys2Proof.Machine

/-- `CLR`: PBUF <- [], ERR <- 0 (R210). -/
def execClr (s : State) : Result := succeed (clearFault s)

/-- `SETMAGIC m`: MAGIC <- m (R211). -/
def execSetmagic (m : BitVec 32) (s : State) : Result := succeed { s with magic := m }

end Sys2Proof.Machine
end

