-- ==== Sys2Proof/Machine/Checksum.lean ====
section
/-! DEFINITION. The checksum unit (42_checksum.md): SHA-256 as R137 to R141 give it, and the four-byte tag of the double
hash. HASH256 = SHA-256 is general knowledge G1 and decision D14 (log entry 4). -/

namespace Sys2Proof.Machine

namespace Sha256

/-- `SHR_n` (R137). -/
def shr (n : Nat) (x : Word32) : Word32 := x >>> n

/-- `ROTR_n`, for 0 < n < 32 (R137). -/
def rotr (n : Nat) (x : Word32) : Word32 := (x >>> n) ||| (x <<< (32 - n))

/-- R137 -/
def ch (x y z : Word32) : Word32 := (x &&& y) ^^^ (~~~x &&& z)

/-- R137 -/
def maj (x y z : Word32) : Word32 := (x &&& y) ^^^ (x &&& z) ^^^ (y &&& z)

/-- R137 -/
def bsig0 (x : Word32) : Word32 := rotr 2 x ^^^ rotr 13 x ^^^ rotr 22 x

/-- R137 -/
def bsig1 (x : Word32) : Word32 := rotr 6 x ^^^ rotr 11 x ^^^ rotr 25 x

/-- R137 -/
def ssig0 (x : Word32) : Word32 := rotr 7 x ^^^ rotr 18 x ^^^ shr 3 x

/-- R137 -/
def ssig1 (x : Word32) : Word32 := rotr 17 x ^^^ rotr 19 x ^^^ shr 10 x

/-- The round constants K[0..63], a row of R138's table a line. -/
def roundConstants : List Word32 :=
  [0x428a2f98#32, 0x71374491#32, 0xb5c0fbcf#32, 0xe9b5dba5#32, 0x3956c25b#32, 0x59f111f1#32, 0x923f82a4#32, 0xab1c5ed5#32] ++
  [0xd807aa98#32, 0x12835b01#32, 0x243185be#32, 0x550c7dc3#32, 0x72be5d74#32, 0x80deb1fe#32, 0x9bdc06a7#32, 0xc19bf174#32] ++
  [0xe49b69c1#32, 0xefbe4786#32, 0x0fc19dc6#32, 0x240ca1cc#32, 0x2de92c6f#32, 0x4a7484aa#32, 0x5cb0a9dc#32, 0x76f988da#32] ++
  [0x983e5152#32, 0xa831c66d#32, 0xb00327c8#32, 0xbf597fc7#32, 0xc6e00bf3#32, 0xd5a79147#32, 0x06ca6351#32, 0x14292967#32] ++
  [0x27b70a85#32, 0x2e1b2138#32, 0x4d2c6dfc#32, 0x53380d13#32, 0x650a7354#32, 0x766a0abb#32, 0x81c2c92e#32, 0x92722c85#32] ++
  [0xa2bfe8a1#32, 0xa81a664b#32, 0xc24b8b70#32, 0xc76c51a3#32, 0xd192e819#32, 0xd6990624#32, 0xf40e3585#32, 0x106aa070#32] ++
  [0x19a4c116#32, 0x1e376c08#32, 0x2748774c#32, 0x34b0bcb5#32, 0x391c0cb3#32, 0x4ed8aa4a#32, 0x5b9cca4f#32, 0x682e6ff3#32] ++
  [0x748f82ee#32, 0x78a5636f#32, 0x84c87814#32, 0x8cc70208#32, 0x90befffa#32, 0xa4506ceb#32, 0xbef9a3f7#32, 0xc67178f2#32]

/-- The eight words of a hash value or of the working variables a to h (R138, R140). -/
structure Words8 where
  a : Word32
  b : Word32
  c : Word32
  d : Word32
  e : Word32
  f : Word32
  g : Word32
  h : Word32
deriving DecidableEq, Repr

/-- The initial hash value H0 (R138). -/
def initial : Words8 :=
  ⟨0x6a09e667#32, 0xbb67ae85#32, 0x3c6ef372#32, 0xa54ff53a#32, 0x510e527f#32, 0x9b05688c#32, 0x1f83d9ab#32, 0x5be0cd19#32⟩

/-- |z| of R139: (55 - L) mod 64, written without negative numbers. -/
def zeroCount (len : Nat) : Nat := (119 - len % 64) % 64

/-- `padded` (R139). -/
def pad (m : Bytes) : Bytes :=
  m ++ [0x80#8] ++ List.replicate (zeroCount m.length) 0x00#8 ++ be 8 (8 * m.length)

/-- The first `n` pieces of `k` bytes each. -/
def pieces (k : Nat) : Nat → Bytes → List Bytes
  | 0, _ => []
  | n + 1, s => s.take k :: pieces k n (s.drop k)

/-- W[0..15]: the sixteen big-endian words of a 64-byte block (R140). -/
def blockWords (block : Bytes) : List Word32 := (pieces 4 16 block).map fun p => BitVec.ofNat 32 (beDec p)

/-- `n` further words of the schedule (R140). The list is newest first, so W[t-2], W[t-7], W[t-15], W[t-16] stand at
indexes 1, 6, 14, 15. -/
def extend : Nat → List Word32 → List Word32
  | 0, w => w
  | n + 1, w => extend n ((ssig1 (w.getD 1 0) + w.getD 6 0 + ssig0 (w.getD 14 0) + w.getD 15 0) :: w)

/-- W[0..63] (R140). -/
def schedule (block : Bytes) : List Word32 := (extend 48 (blockWords block).reverse).reverse

/-- One round: T1, T2 and the simultaneous update of the eight working variables (R140). -/
def round (v : Words8) (k w : Word32) : Words8 :=
  let t1 := v.h + bsig1 v.e + ch v.e v.f v.g + k + w
  let t2 := bsig0 v.a + maj v.a v.b v.c
  ⟨t1 + t2, v.a, v.b, v.c, v.d + t1, v.e, v.f, v.g⟩

/-- The wordwise sum modulo 2^32 (the last two lines of R140). -/
def Words8.add (x y : Words8) : Words8 :=
  ⟨x.a + y.a, x.b + y.b, x.c + y.c, x.d + y.d, x.e + y.e, x.f + y.f, x.g + y.g, x.h + y.h⟩

/-- The compression of one block into the hash value (R140). -/
def compress (hv : Words8) (block : Bytes) : Words8 :=
  hv.add ((roundConstants.zip (schedule block)).foldl (fun v kw => round v kw.1 kw.2) hv)

/-- The hash value as 32 bytes, each word big-endian (R141). -/
def Words8.bytes (x : Words8) : Bytes :=
  be 4 x.a.toNat ++ be 4 x.b.toNat ++ be 4 x.c.toNat ++ be 4 x.d.toNat ++
  be 4 x.e.toNat ++ be 4 x.f.toNat ++ be 4 x.g.toNat ++ be 4 x.h.toNat

end Sha256

/-- SHA-256 of a byte sequence (R137 to R141). -/
def sha256 (m : Bytes) : Bytes :=
  let padded := Sha256.pad m
  ((Sha256.pieces 64 (padded.length / 64) padded).foldl Sha256.compress Sha256.initial).bytes

/-- `HASH256` (R132, decision D14). -/
def hash256 (m : Bytes) : Bytes := sha256 m

/-- `checksum(s)`: the first four bytes of the double hash, read little-endian (R130, R131). -/
def checksum (s : Bytes) : BitVec 32 := BitVec.ofNat 32 (leDec ((hash256 (hash256 s)).take 4))

end Sys2Proof.Machine
end

