-- ==== Sys2Proof/Machine/Envelope.lean ====
section
/-! DEFINITION. The message-envelope framer: FRAME (45_envelope.md). -/

namespace Sys2Proof.Machine

/-- The serialized frame: magic (4, LE), name (12), length (4, LE), checksum (4, LE), payload (R190, R191). -/
def frameBytes (magic : BitVec 32) (name payload : Bytes) : Bytes :=
  le 4 magic.toNat ++ pad12 name ++ le 4 payload.length ++ le 4 (checksum payload).toNat ++ payload

/-- `FRAME name`: over-long names fault; otherwise all of PBUF goes out in one frame and PBUF is empty after (R190,
R196). -/
def execFrame (name : Bytes) (s : State) : Result :=
  if name.length > Config.nameLen then raiseFault .cmdName s
  else succeed { emit (frameBytes s.magic name s.pbuf) s with pbuf := [] }

end Sys2Proof.Machine
end

