-- ==== Sys2Proof/Machine/VarLen.lean ====
section
/-! DEFINITION. The variable-length-field encoder: LPB, UAG, INVV (43_varlen_fields.md). The range check comes first,
then one append of prefix and content together (R150). -/

namespace Sys2Proof.Machine

/-- `LPB s` (R151). -/
def execLpb (bytes : Bytes) (s : State) : Result :=
  if bytes.length > Config.maxCount then raiseFault .fieldLen s
  else append (lengthPrefixed bytes) s

/-- `UAG t`: the limit applies to the transmitted string, delimiters included (R153, R154). -/
def execUag (text : Bytes) (s : State) : Result :=
  if (userAgent text).length > Config.maxCount then raiseFault .fieldLen s
  else append (lengthPrefixed (userAgent text)) s

/-- `INVV r_0, ..., r_(n-1)` (R156). -/
def execInvv (records : List InvRecord) (s : State) : Result :=
  if records.length > Config.maxCount then raiseFault .invCount s
  else append (inventoryVector records) s

end Sys2Proof.Machine
end

