-- ==== Sys2Proof/Machine/Dispatch.lean ====
section
/-! DEFINITION. `Exec` of R8 (00_scope.md): one arm per command. The latch is tested by the step, before decoding. -/

namespace Sys2Proof.Machine

def exec (i : Instr) (s : State) : Host.Outcome State Fault Refusal :=
  match i with
  | .clr => Sys2Proof.Machine.execClr s
  | .setmagic m => Sys2Proof.Machine.execSetmagic m s
  | .wu16 v => Sys2Proof.Machine.execWu16 v s
  | .wu32 v => Sys2Proof.Machine.execWu32 v s
  | .wu64 v => Sys2Proof.Machine.execWu64 v s
  | .wi32 v => Sys2Proof.Machine.execWi32 v s
  | .wi64 v => Sys2Proof.Machine.execWi64 v s
  | .raw bytes => Sys2Proof.Machine.execRaw bytes s
  | .addr services address port => Sys2Proof.Machine.execAddr services address port s
  | .lpb bytes => Sys2Proof.Machine.execLpb bytes s
  | .uag text => Sys2Proof.Machine.execUag text s
  | .invv records => Sys2Proof.Machine.execInvv records s
  | .frame name => Sys2Proof.Machine.execFrame name s

end Sys2Proof.Machine
end

