-- ==== Sys2Proof/Machine/Cycle.lean ====
section
/-! DEFINITION. The command cycle (R8 of 00_scope.md) and what each port event does to the block. -/

namespace Sys2Proof.Machine

/-- The one packet that a latched block executes: exactly [0x01] (R8, R226 of 60_exceptions.md). -/
def clearPacket : Bytes := [0x01#8]

/-- The body of the step on one packet, all but the advance of pc (R8, with the priority of R230). While a fault is
latched nothing is decoded: the packet [0x01] clears, every other is answered E_LATCHED and changes nothing (R226). -/
def commandBody (pkt : Bytes) (s : State) : Result :=
  match s.err with
  | some _ => if pkt = clearPacket then exec .clr s else .next (s.respond .latched)
  | none =>
    match decode pkt with
    | .illegal => raiseFault .illegal s
    | .malformed => raiseFault .malformed s
    | .command i => exec i s

/-- A further change of the state of an outcome that goes on. -/
def thenDo (f : State → State) : Result → Result
  | .next s => .next (f s)
  | .fault r => .fault r
  | .refused r => .refused r

/-- One command cycle: the body, then pc + 1 whatever the response (R8, R21). -/
def commandCycle (pkt : Bytes) (s : State) : Result := thenDo State.advancePc (commandBody pkt s)

/-- What one port event does (R266, R267 of 70_reset_and_hazards.md). -/
def serve (e : PortEvent) (s : State) : Result :=
  match e with
  | .packet pkt => commandCycle pkt s
  | .resetInput => .next (resetBlock s)
  | .takeFrame => .next (transportTake s)

/-- With no event pending the block is idle, not stuck: it keeps all its state (R245 of 60_exceptions.md, R266). -/
def idle (s : State) : Result := .next s

/-- The next port event, taken off the pending ones, and the state without it. -/
def nextEvent (s : State) : Option (PortEvent × State) :=
  match s.inputs with
  | [] => none
  | e :: rest => some (e, { s with inputs := rest })

/-- A packet put in front of everything pending, to be the very next event (log entry 7). -/
def presentPacket (pkt : Bytes) (s : State) : State := { s with inputs := .packet pkt :: s.inputs }

end Sys2Proof.Machine
end

