-- ==== Sys2Proof/Machine/Step.lean ====
section
/-! DEFINITION. One step of the block: it serves the next port event, or is idle where there is none. -/

namespace Sys2Proof.Machine

/-- One step (R7, R8 of 00_scope.md; R260, R266, R267 of 70_reset_and_hazards.md). -/
def step (s : State) : Host.Outcome State Fault Refusal :=
  match nextEvent s with
  | none => idle s
  | some (e, t) => serve e t

/-- The state with the packet of an opcode-table word presented as the very next event. -/
def State.withFetchWord (s : State) (nbits w : Nat) : State := presentPacket (tablePacket nbits w) s

end Sys2Proof.Machine
end

