-- ==== Sys2Proof/Machine/Macros.lean ====
section
/-! DEFINITION. The six pseudo-instructions as the command lists they stand for, and BNP's encoders as pure functions
beside the machine (44_payload_macros.md). Also three host-side conventions the spec records. -/

namespace Sys2Proof.Machine

/-- NetworkAddress, the three operands of ADDR (R34 of 10_state.md). -/
structure NetworkAddress where
  services : BitVec 64
  address : Bytes
  port : BitVec 16
deriving DecidableEq, Repr

/-- HandshakePayload, the operands of `enc.version` (R35 of 10_state.md, R170). -/
structure Handshake where
  protocolVersion : Int
  services : BitVec 64
  timestamp : Int
  addressReceiving : NetworkAddress
  addressFrom : NetworkAddress
  nonce : BitVec 64
  userAgent : Bytes
  startHeight : Int
deriving DecidableEq, Repr

/-- The pseudo-instructions (R69 of 30_encoding.md). -/
inductive Pseudo where
  | encVersion (p : Handshake)
  | encVerack
  | encGetdata (records : List InvRecord)
  | msgVersion (p : Handshake)
  | msgVerack
  | msgGetdata (records : List InvRecord)
deriving DecidableEq, Repr

/-- `version` in ASCII (R174; G5). -/
def nameVersion : Bytes := [0x76#8, 0x65#8, 0x72#8, 0x73#8, 0x69#8, 0x6f#8, 0x6e#8]

/-- `verack` in ASCII (R175; BNP's vector). -/
def nameVerack : Bytes := [0x76#8, 0x65#8, 0x72#8, 0x61#8, 0x63#8, 0x6b#8]

/-- `getdata` in ASCII (R176; G5). -/
def nameGetdata : Bytes := [0x67#8, 0x65#8, 0x74#8, 0x64#8, 0x61#8, 0x74#8, 0x61#8]

/-- The ADDR command of an address (R170). -/
def NetworkAddress.command (a : NetworkAddress) : Instr := .addr a.services a.address a.port

/-- The eight commands of `enc.version`, in order (R170). -/
def expandHandshake (p : Handshake) : List Instr :=
  [.wi32 p.protocolVersion, .wu64 p.services, .wi64 p.timestamp, p.addressReceiving.command, p.addressFrom.command,
    .wu64 p.nonce, .uag p.userAgent, .wi32 p.startHeight]

/-- The commands a pseudo-instruction stands for (R170, R172 to R176). -/
def Pseudo.expand : Pseudo → List Instr
  | .encVersion p => expandHandshake p
  | .encVerack => []
  | .encGetdata records => [.invv records]
  | .msgVersion p => expandHandshake p ++ [.frame nameVersion]
  | .msgVerack => [.frame nameVerack]
  | .msgGetdata records => [.invv records, .frame nameGetdata]

/-- Every command of the expansion can be put in a packet. -/
def Pseudo.wellFormed (p : Pseudo) : Bool := p.expand.all Instr.wellFormed

/-- `enc_addr` (R178). -/
def encodeAddress (a : NetworkAddress) : Bytes := le 8 a.services.toNat ++ a.address ++ be 2 a.port.toNat

/-- `encodeHandshake` (R178); none where it fails. -/
def encodeHandshake (p : Handshake) : Option Bytes :=
  if p.userAgent.length ≤ 253 then
    some (le 4 (twos 32 p.protocolVersion) ++ le 8 p.services.toNat ++ le 8 (twos 64 p.timestamp) ++
      encodeAddress p.addressReceiving ++ encodeAddress p.addressFrom ++ le 8 p.nonce.toNat ++
      [BitVec.ofNat 8 (p.userAgent.length + 2)] ++ [0x2F#8] ++ p.userAgent ++ [0x2F#8] ++
      le 4 (twos 32 p.startHeight))
  else none

/-- `encodeAck` (R172, R178). -/
def encodeAck : Bytes := []

/-- `encodeInventoryRequest` (R178); none where it fails. -/
def encodeInventoryRequest (records : List InvRecord) : Option Bytes :=
  if records.length ≤ 255 then
    some ([BitVec.ofNat 8 records.length] ++ (records.map fun r => le 4 r.tag.toNat ++ r.hash).flatten)
  else none

/-- `frame_bytes` (R178): the four checksum bytes are taken straight from the digest; none where it fails. -/
def frameReference (magic : BitVec 32) (name p : Bytes) : Option Bytes :=
  if name.length ≤ 12 ∧ p.length ≤ 2 ^ 32 - 1 then
    some (le 4 magic.toNat ++ (name ++ List.replicate (12 - name.length) 0x00#8) ++ le 4 p.length ++
      (hash256 (hash256 p)).take 4 ++ p)
  else none

/-- The payload a pseudo-instruction builds, as BNP's function gives it (R178); none where it fails. -/
def Pseudo.payload : Pseudo → Option Bytes
  | .encVersion p => encodeHandshake p
  | .encVerack => some encodeAck
  | .encGetdata records => encodeInventoryRequest records
  | .msgVersion p => encodeHandshake p
  | .msgVerack => some encodeAck
  | .msgGetdata records => encodeInventoryRequest records

/-- The name of the message a pseudo-instruction frames; none for the three that frame nothing (R174 to R176). -/
def Pseudo.messageName : Pseudo → Option Bytes
  | .encVersion _ => none
  | .encVerack => none
  | .encGetdata _ => none
  | .msgVersion _ => some nameVersion
  | .msgVerack => some nameVerack
  | .msgGetdata _ => some nameGetdata

/-- The IPv4-mapped form of a.b.c.d (R122 of 41_network_address.md, G2; a host's function, log entry 13). -/
def ipv4Mapped (a b c d : Byte) : Bytes := List.replicate 10 0x00#8 ++ [0xff#8, 0xff#8, a, b, c, d]

/-- The kinds of inventory object BNP names (R36 of 10_state.md). -/
inductive InvKind where
  | transaction | block | filteredBlock | compactBlock | witnessTransaction | witnessBlock | filteredWitnessBlock
deriving DecidableEq, Repr

/-- The type tags the network uses (R159 of 43_varlen_fields.md, G3; the block knows none of them, log entry 13). -/
def InvKind.tag : InvKind → BitVec 32
  | .transaction => 1#32
  | .block => 2#32
  | .filteredBlock => 3#32
  | .compactBlock => 4#32
  | .witnessTransaction => 0x40000001#32
  | .witnessBlock => 0x40000002#32
  | .filteredWitnessBlock => 0x40000003#32

end Sys2Proof.Machine
end

