-- ==== Sys2Proof/Machine/Assembler.lean ====
section
/-! DEFINITION. The assembler's text form (R68, R69 of 30_encoding.md): one command or pseudo-instruction a line, going on
in the next line after a comma; text from `;` to the end of the line is a comment. It answers none where the spec has an
assembly error. Points the spec leaves to the reader are log entry 11. -/

namespace Sys2Proof.Machine

namespace Asm

/-- What a line is made of. -/
inductive Token where
  /-- a mnemonic or a numeral -/
  | word (cs : List Char)
  /-- a `<bytes>` operand -/
  | bytes (bs : Bytes)
  | comma
  | lpar
  | rpar
deriving DecidableEq, Repr

/-- A space or a tab. DESIGN CHOICE (log entry 11, safe): no other character is white space in a line. -/
def isSpace (c : Char) : Bool := c.toNat == 0x20 || c.toNat == 0x09

/-- The characters of a mnemonic or a numeral. -/
def isWordChar (c : Char) : Bool := c.isAlphanum || c == '.' || c == '-'

/-- A character that may stand in a quoted string: 0x20 to 0x7E but the double quote and the backslash (R68). -/
def isStringChar (c : Char) : Bool :=
  0x20 ≤ c.toNat && c.toNat ≤ 0x7E && c.toNat != 0x22 && c.toNat != 0x5C

/-- A hexadecimal digit's value. DESIGN CHOICE (log entry 11, safe): the letters are in either case. -/
def hexDigit (c : Char) : Option Nat :=
  let n := c.toNat
  if 0x30 ≤ n ∧ n ≤ 0x39 then some (n - 0x30)
  else if 0x41 ≤ n ∧ n ≤ 0x46 then some (n - 0x41 + 10)
  else if 0x61 ≤ n ∧ n ≤ 0x66 then some (n - 0x61 + 10)
  else none

/-- A decimal digit's value. -/
def decDigit (c : Char) : Option Nat :=
  if 0x30 ≤ c.toNat ∧ c.toNat ≤ 0x39 then some (c.toNat - 0x30) else none

/-- The value of a nonempty string of digits in a base. -/
def digitsValue (base : Nat) (digit : Char → Option Nat) : List Char → Option Nat
  | [] => none
  | c :: cs => (c :: cs).foldl (fun acc d => acc.bind fun a => (digit d).map (a * base + ·)) (some 0)

/-- A decimal numeral or a `0x` hexadecimal one (R68). DESIGN CHOICE (log entry 11, safe): leading
zeros are allowed. -/
def numeral (cs : List Char) : Option Nat :=
  match cs with
  | '0' :: 'x' :: ds => digitsValue 16 hexDigit ds
  | _ => digitsValue 10 decDigit cs

/-- The same with an optional leading `-` (R68), before either kind of numeral. DESIGN CHOICE (log entry 11, safe): nothing
stands between the sign and the numeral. -/
def signedNumeral (cs : List Char) : Option Int :=
  match cs with
  | '-' :: ds => (numeral ds).map fun n => -(n : Int)
  | _ => (numeral cs).map fun n => (n : Int)

/-- The rest of a quoted string after its first quote: its bytes, and the text after its last quote. -/
def readString : List Char → Option (Bytes × List Char)
  | [] => none
  | c :: cs =>
    if c.toNat = 0x22 then some ([], cs)
    else if isStringChar c then (readString cs).map fun p => (BitVec.ofNat 8 c.toNat :: p.1, p.2)
    else none

/-- The digit pairs after `hex:`, with optional spaces between pairs (R68), and the text after them. DESIGN CHOICE (log
entry 11, safe): spaces are also accepted between `hex:` and the first pair and after the last, and a tab wherever a
space is; R68 speaks of spaces between pairs only. -/
def readHex : List Char → Option (Bytes × List Char)
  | [] => some ([], [])
  | [c] => if isSpace c then some ([], []) else if (hexDigit c).isSome then none else some ([], [c])
  | c :: d :: cs =>
    if isSpace c then readHex (d :: cs)
    else
      match hexDigit c, hexDigit d with
      | some x, some y => (readHex cs).map fun p => (BitVec.ofNat 8 (16 * x + y) :: p.1, p.2)
      | some _, none => none
      | none, _ => some ([], c :: d :: cs)

/-- The text after `hex:`, where a text begins so. -/
def afterHex : List Char → Option (List Char)
  | 'h' :: 'e' :: 'x' :: ':' :: cs => some cs
  | _ => none

/-- The tokens of a line, up to a comment; every token takes at least one character, so the bound is the line's length.
DESIGN CHOICE (log entry 11, safe): a `;` in a quoted string starts no comment, and no space need stand between two tokens
that can be told apart without one. -/
def tokens : Nat → List Char → Option (List Token)
  | 0, cs => if cs = [] then some [] else none
  | _ + 1, [] => some []
  | n + 1, c :: cs =>
    if isSpace c then tokens n cs
    else if c = ';' then some []
    else if c = ',' then (tokens n cs).map (.comma :: ·)
    else if c = '(' then (tokens n cs).map (.lpar :: ·)
    else if c = ')' then (tokens n cs).map (.rpar :: ·)
    else if c.toNat = 0x22 then
      (readString cs).bind fun p => (tokens n p.2).map (.bytes p.1 :: ·)
    else
      match afterHex (c :: cs) with
      | some rest => (readHex rest).bind fun p => (tokens n p.2).map (.bytes p.1 :: ·)
      | none =>
        if isWordChar c then
          (tokens n (cs.dropWhile isWordChar)).map (.word (c :: cs.takeWhile isWordChar) :: ·)
        else none

/-- A fixed token. -/
def expect (t : Token) : List Token → Option (List Token)
  | [] => none
  | u :: ts => if u = t then some ts else none

/-- A `<uN>` operand: a numeral in 0 .. 2^N - 1. -/
def unsignedOperand (n : Nat) : List Token → Option (BitVec n × List Token)
  | .word cs :: ts => (numeral cs).bind fun v => if v < 2 ^ n then some (BitVec.ofNat n v, ts) else none
  | _ => none

/-- An `<iN>` operand: a numeral in -2^(N-1) .. 2^(N-1) - 1. -/
def signedOperand (n : Nat) : List Token → Option (Int × List Token)
  | .word cs :: ts => (signedNumeral cs).bind fun v => if InSigned n v then some (v, ts) else none
  | _ => none

/-- A `<bytes>` operand. -/
def bytesOperand : List Token → Option (Bytes × List Token)
  | .bytes bs :: ts => some (bs, ts)
  | _ => none

/-- A value with no text after it. -/
def atEnd {α : Type} (p : α × List Token) : Option α := if p.2 = [] then some p.1 else none

/-- `<u64>, <bytes16>, <u16>`: services, address, port. -/
def addressOperands (ts : List Token) : Option (NetworkAddress × List Token) := do
  let (services, ts) ← unsignedOperand 64 ts
  let ts ← expect .comma ts
  let (address, ts) ← bytesOperand ts
  let ts ← expect .comma ts
  let (port, ts) ← unsignedOperand 16 ts
  return (⟨services, address, port⟩, ts)

/-- The same in parentheses, as `enc.version` has it (R170 of 44_payload_macros.md). -/
def addressGroup (ts : List Token) : Option (NetworkAddress × List Token) := do
  let ts ← expect .lpar ts
  let (a, ts) ← addressOperands ts
  let ts ← expect .rpar ts
  return (a, ts)

/-- One `(<u32>, <bytes32>)` pair. -/
def recordOperand (ts : List Token) : Option (InvRecord × List Token) := do
  let ts ← expect .lpar ts
  let (tag, ts) ← unsignedOperand 32 ts
  let ts ← expect .comma ts
  let (hash, ts) ← bytesOperand ts
  let ts ← expect .rpar ts
  return (⟨tag, hash⟩, ts)

/-- One or more pairs with commas between; a pair takes tokens, so the bound is their number. -/
def recordList : Nat → List Token → Option (List InvRecord)
  | 0, _ => none
  | n + 1, ts =>
    (recordOperand ts).bind fun p =>
      match p.2 with
      | [] => some [p.1]
      | .comma :: rest => (recordList n rest).map (p.1 :: ·)
      | _ => none

/-- Zero or more pairs to the end of the line. -/
def records (ts : List Token) : Option (List InvRecord) := if ts = [] then some [] else recordList ts.length ts

/-- The operands of `enc.version`, to the end of the line (R170). -/
def handshake (ts : List Token) : Option Handshake := do
  let (protocolVersion, ts) ← signedOperand 32 ts
  let ts ← expect .comma ts
  let (services, ts) ← unsignedOperand 64 ts
  let ts ← expect .comma ts
  let (timestamp, ts) ← signedOperand 64 ts
  let ts ← expect .comma ts
  let (receiving, ts) ← addressGroup ts
  let ts ← expect .comma ts
  let (sending, ts) ← addressGroup ts
  let ts ← expect .comma ts
  let (nonce, ts) ← unsignedOperand 64 ts
  let ts ← expect .comma ts
  let (agent, ts) ← bytesOperand ts
  let ts ← expect .comma ts
  let (height, ts) ← signedOperand 32 ts
  atEnd (⟨protocolVersion, services, timestamp, receiving, sending, nonce, agent, height⟩, ts)

/-- The word in lower case: the two spellings of a mnemonic are the same thing (R68). DESIGN CHOICE (log entry 11, safe): so
is a spelling of both cases. -/
def lower (cs : List Char) : List Char := cs.map Char.toLower

/-- The commands of a mnemonic with its operand tokens; none for an unknown mnemonic or wrong operands. -/
def command (mnemonic : List Char) (ts : List Token) : Option (List Instr) :=
  let m := lower mnemonic
  if m = ['c', 'l', 'r'] then if ts = [] then some [.clr] else none
  else if m = ['s', 'e', 't', 'm', 'a', 'g', 'i', 'c'] then
    (unsignedOperand 32 ts).bind atEnd |>.map fun v => [.setmagic v]
  else if m = ['w', 'u', '1', '6'] then (unsignedOperand 16 ts).bind atEnd |>.map fun v => [.wu16 v]
  else if m = ['w', 'u', '3', '2'] then (unsignedOperand 32 ts).bind atEnd |>.map fun v => [.wu32 v]
  else if m = ['w', 'u', '6', '4'] then (unsignedOperand 64 ts).bind atEnd |>.map fun v => [.wu64 v]
  else if m = ['w', 'i', '3', '2'] then (signedOperand 32 ts).bind atEnd |>.map fun v => [.wi32 v]
  else if m = ['w', 'i', '6', '4'] then (signedOperand 64 ts).bind atEnd |>.map fun v => [.wi64 v]
  else if m = ['r', 'a', 'w'] then (bytesOperand ts).bind atEnd |>.map fun s => [.raw s]
  else if m = ['a', 'd', 'd', 'r'] then (addressOperands ts).bind atEnd |>.map fun a => [a.command]
  else if m = ['l', 'p', 'b'] then (bytesOperand ts).bind atEnd |>.map fun s => [.lpb s]
  else if m = ['u', 'a', 'g'] then (bytesOperand ts).bind atEnd |>.map fun s => [.uag s]
  else if m = ['i', 'n', 'v', 'v'] then (records ts).map fun rs => [.invv rs]
  else if m = ['f', 'r', 'a', 'm', 'e'] then (bytesOperand ts).bind atEnd |>.map fun s => [.frame s]
  else if m = ['e', 'n', 'c', '.', 'v', 'e', 'r', 's', 'i', 'o', 'n'] then
    (handshake ts).map fun p => (Pseudo.encVersion p).expand
  else if m = ['e', 'n', 'c', '.', 'v', 'e', 'r', 'a', 'c', 'k'] then
    if ts = [] then some Pseudo.encVerack.expand else none
  else if m = ['e', 'n', 'c', '.', 'g', 'e', 't', 'd', 'a', 't', 'a'] then
    (records ts).map fun rs => (Pseudo.encGetdata rs).expand
  else if m = ['m', 's', 'g', '.', 'v', 'e', 'r', 's', 'i', 'o', 'n'] then
    (handshake ts).map fun p => (Pseudo.msgVersion p).expand
  else if m = ['m', 's', 'g', '.', 'v', 'e', 'r', 'a', 'c', 'k'] then
    if ts = [] then some Pseudo.msgVerack.expand else none
  else if m = ['m', 's', 'g', '.', 'g', 'e', 't', 'd', 'a', 't', 'a'] then
    (records ts).map fun rs => (Pseudo.msgGetdata rs).expand
  else none

/-- The commands of one line's tokens; none for an assembly error, an operand no packet can carry among them (R68). -/
def commandLine (ts : List Token) : Option (List Instr) :=
  match ts with
  | [] => some []
  | .word m :: ts => (command m ts).bind fun is => if is.all Instr.wellFormed then some is else none
  | _ => none

/-- A line whose last token is a comma goes on in the next one, as program P2 of 95_test_vectors.md is written; `pending` is
what such lines have left. DESIGN CHOICE (log entry 11, safe): R68 says only that there is one command a line. -/
def joinLines : List Token → List (List Token) → List (List Token)
  | pending, [] => [pending]
  | pending, ts :: rest =>
    if (pending ++ ts).getLast? = some .comma then joinLines (pending ++ ts) rest
    else (pending ++ ts) :: joinLines [] rest

/-- The lines of a text. DESIGN CHOICE (log entry 11, safe): a line ends at a line feed (0x0A) or at the end of the text and
nowhere else, so that a carriage return outside a comment is an assembly error; R68 does not say what ends a line. -/
def lines (text : List Char) : List (List Char) := text.splitOn '\n'

/-- The commands of a program; none where any line is an assembly error. -/
def program (text : List Char) : Option (List Instr) :=
  ((lines text).mapM fun cs => tokens cs.length cs).bind fun ts =>
    ((joinLines [] ts).mapM commandLine).map List.flatten

end Asm

end Sys2Proof.Machine
end

