-- ==== Sys2Proof/Machine/Session.lean ====
section
/-! DEFINITION. Runs (R264 of 70_reset_and_hazards.md): a block serving a list of port events, and the host program of
the session driver (R268). -/

namespace Sys2Proof.Machine

/-- The state with these port events still to come, and no others. -/
def State.withInputs (s : State) (events : List PortEvent) : State := { s with inputs := events }

/-- The block serves these events, one a step, from this state. -/
def run (events : List PortEvent) (s : State) : Result :=
  Host.Core.run Sys2Proof.core events.length (s.withInputs events)

/-- The packets of a list of commands, presented in order. -/
def packetsOf (commands : List Instr) : List PortEvent := commands.map fun i => .packet (encode i)

/-- A program: the packets of its commands, issued from reset with the parameters `cfg` (R264). -/
def runProgram (cfg : Config) (commands : List Instr) : Result := run (packetsOf commands) (State.resetOf cfg)

/-- The result of a run (R264). -/
structure RunResult where
  responses : List Response
  emitted : List Bytes
  pbuf : Bytes
  magic : BitVec 32
  err : Option FaultCode
deriving DecidableEq, Repr

/-- The result of a run that ends in this state (R264). -/
def State.runResult (s : State) : RunResult := ⟨s.responses, s.emitted, s.pbuf, s.magic, s.err⟩

/-- One exchange of the session driver: the commands of a message, then the transport writes its frame (R268, R269). -/
def exchange (m : Pseudo) : List PortEvent := packetsOf m.expand ++ [.takeFrame]

/-- The session driver's three sends (R268, BNP §4.6): handshake, acknowledgement, inventory request. Host software; it
puts no requirement on the block. -/
def sessionDriver (p : Handshake) (records : List InvRecord) : List PortEvent :=
  exchange (.msgVersion p) ++ exchange .msgVerack ++ exchange (.msgGetdata records)

end Sys2Proof.Machine
end

