-- ==== Sys2Proof/Safety.lean ====
section
/-! DEFINITION. The terms that statements about the block are made in: the state after a success or a fault, frames that
are consistent, the invariant of R32 (10_state.md), what each command checks and appends, and completed runs. -/

namespace Sys2Proof.Machine

/-- The first `n` bytes of a value, least significant first: byte k is v[8k+7 : 8k] (R40, R43 of 20_memory.md). -/
def wireLE {w : Nat} (n : Nat) (v : BitVec w) : Bytes := (List.range n).map fun k => v.extractLsb' (8 * k) 8

/-- The same bytes, most significant first. -/
def wireBE {w : Nat} (n : Nat) (v : BitVec w) : Bytes := (wireLE n v).reverse

/-- The thirteen assigned opcode values, as R66 (30_encoding.md) lists them. -/
def assignedOpcodes : Bytes :=
  [0x01#8, 0x02#8, 0x10#8, 0x11#8, 0x12#8, 0x13#8, 0x14#8, 0x18#8, 0x20#8, 0x30#8, 0x31#8, 0x32#8, 0x40#8]

/-- The state after a successful append: the bytes at the end of PBUF, OK responded, all else as it was. -/
def State.appended (s : State) (bytes : Bytes) : State :=
  { s with pbuf := s.pbuf ++ bytes, responses := s.responses ++ [.ok] }

/-- The state after a fault: PBUF empty, ERR and the response the code, all else as it was (R224 of 60_exceptions.md). -/
def State.faulted (s : State) (c : FaultCode) : State :=
  { s with pbuf := [], err := some c, responses := s.responses ++ [.fault c] }

/-- The state after a successful FRAME (R190 of 45_envelope.md). -/
def State.framed (s : State) (name : Bytes) : State :=
  { s with
    txq := s.txq ++ [frameBytes s.magic name s.pbuf]
    pbuf := []
    responses := s.responses ++ [.ok] }

/-- The state after a successful SETMAGIC (R211 of 46_control.md). -/
def State.remagicked (s : State) (m : BitVec 32) : State := { s with magic := m, responses := s.responses ++ [.ok] }

/-- The state after CLR (R210 of 46_control.md). -/
def State.cleared (s : State) : State := { s with pbuf := [], err := none, responses := s.responses ++ [.ok] }

/-- The outcome `r` of a command in `s` is the append of `bytes` where they fit, and E_OVERFLOW where they do not (R41 of
20_memory.md). -/
def AppendsOrOverflows (r : Result) (s : State) (bytes : Bytes) : Prop :=
  (s.pbuf.length + bytes.length ≤ s.cap → r = .next (s.appended bytes)) ∧
  (s.cap < s.pbuf.length + bytes.length → r = .next (s.faulted .overflow))

/-- A frame whose length and checksum agree with its payload (R32 (d), R195 of 45_envelope.md). -/
def FrameConsistent (f : Bytes) : Prop :=
  Config.hdrLen ≤ f.length ∧
  leDec (slice f 16 20) = f.length - Config.hdrLen ∧
  slice f 20 24 = (hash256 (hash256 (f.drop Config.hdrLen))).take 4

/-- The invariants of R32 (10_state.md), on every frame emitted and not only those still queued, with the count of
responses of R48 (e) (20_memory.md). -/
structure Inv (s : State) : Prop where
  /-- R32 (a) -/
  pbuf_fits : Memory.wf s.pbuf s.cap = true
  /-- R32 (b) -/
  latched_empty : s.err ≠ none → s.pbuf = []
  /-- R32 (c) -/
  err_legal : s.errOut.toNat ≤ 6
  /-- R32 (d) -/
  frames_consistent : ∀ f ∈ s.emitted, FrameConsistent f
  /-- R48 (e): exactly one response per packet -/
  one_response_each : s.responses.length = s.pc

end Sys2Proof.Machine

namespace Sys2Proof

open Machine

/-- The range check of a command, priority 4 of R230 (60_exceptions.md): the fault its operands alone raise. -/
def Instr.rangeFault : Instr → Option FaultCode
  | .lpb s => if s.length > 255 then some .fieldLen else none
  | .uag t => if t.length + 2 > 255 then some .fieldLen else none
  | .invv records => if records.length > 255 then some .invCount else none
  | .frame name => if name.length > 12 then some .cmdName else none
  | .clr => none
  | .setmagic _ => none
  | .wu16 _ => none
  | .wu32 _ => none
  | .wu64 _ => none
  | .wi32 _ => none
  | .wi64 _ => none
  | .raw _ => none
  | .addr _ _ _ => none

/-- The number of bytes a command appends to PBUF when it succeeds (R45 of 20_memory.md); none for the three commands
that append nothing and call no Append. -/
def Instr.appendedLength : Instr → Option Nat
  | .wu16 _ => some 2
  | .wu32 _ => some 4
  | .wu64 _ => some 8
  | .wi32 _ => some 4
  | .wi64 _ => some 8
  | .raw s => some s.length
  | .addr _ _ _ => some 26
  | .lpb s => some (1 + s.length)
  | .uag t => some (3 + t.length)
  | .invv records => some (1 + 36 * records.length)
  | .clr => none
  | .setmagic _ => none
  | .frame _ => none

/-- Priority 4 and 5 of R230 for a command that was decoded: its range check, then the room in PBUF, else OK. -/
def Instr.expectedResponse (i : Instr) (s : State) : Response :=
  match i.rangeFault with
  | some c => .fault c
  | none =>
    match i.appendedLength with
    | none => .ok
    | some n => if s.cap < s.pbuf.length + n then .fault .overflow else .ok

end Sys2Proof

namespace Sys2Proof.Machine

/-- The one response of a packet, by the order of R230 (60_exceptions.md): the latch, the opcode, the packet length, the
command's range check, the room in PBUF. -/
def expectedResponse (pkt : Bytes) (s : State) : Response :=
  if s.err ≠ none then if pkt = [0x01#8] then .ok else .latched
  else
    match decode pkt with
    | .illegal => .fault .illegal
    | .malformed => .fault .malformed
    | .command i => i.expectedResponse s

/-- A run that sent everything it began: no fault latched, nothing unfinished, every response OK (R264 of
70_reset_and_hazards.md). -/
def Completed (s : State) : Prop := s.err = none ∧ s.pbuf = [] ∧ ∀ r ∈ s.responses, r = .ok

end Sys2Proof.Machine
end

