-- ==== Sys2Proof/Certificates/Slice0/Obligations.lean ====
section
/-! DEFINITION. The statements about the block, from the numbered rules of spec/. -/

open Sys2Proof Sys2Proof.Machine

/-! ### Packets (30_encoding.md) -/

/-- No bit of an operand is lost on the way into a packet and out of it (R61 to R66). -/
def Obligations.DecodeOfEncodeIsIdentity : Prop :=
  ∀ i : Instr, i.WellFormed → decode (encode i) = .command i

/-- Every bit of every field of an accepted packet is significant (R67 c): the command read from it is well formed and
encodes back to the same packet. -/
def Obligations.EncodeOfDecodeIsIdentity : Prop :=
  ∀ (pkt : Bytes) (i : Instr), decode pkt = .command i → i.WellFormed ∧ encode i = pkt

/-- `Decode` (R66): when a packet is Illegal, when it is Malformed, and that every other packet is the command of its
opcode with the operands of its fields: the well-formed command whose packet it is, and a packet is that of one such
command only. -/
def Obligations.DecodeVerdicts : Prop :=
  ∀ pkt : Bytes,
    (decode pkt = .illegal ↔ pkt = [] ∨ ∃ b rest, pkt = b :: rest ∧ b ∉ assignedOpcodes) ∧
    (decode pkt = .malformed ↔ ∃ b rest, pkt = b :: rest ∧ b ∈ assignedOpcodes ∧ pktLen pkt ≠ some pkt.length) ∧
    (∀ b rest, pkt = b :: rest → b ∈ assignedOpcodes → pktLen pkt = some pkt.length →
      ∃ i : Instr, decode pkt = .command i ∧ i.WellFormed ∧ i.op.code = b ∧ encode i = pkt ∧
        ∀ j : Instr, j.WellFormed → encode j = pkt → j = i)

/-- The table of packet lengths and the cutting of a byte stream (R65). -/
def Obligations.PacketLengthsAndCutting : Prop :=
  (∀ (b : Byte) (rest : Bytes),
    (b = 0x01#8 → pktLen (b :: rest) = some 1) ∧
    (b = 0x10#8 → pktLen (b :: rest) = some 3) ∧
    (b = 0x02#8 ∨ b = 0x11#8 ∨ b = 0x13#8 → pktLen (b :: rest) = some 5) ∧
    (b = 0x12#8 ∨ b = 0x14#8 → pktLen (b :: rest) = some 9) ∧
    (b = 0x20#8 → pktLen (b :: rest) = some 27) ∧
    (b = 0x18#8 → pktLen (b :: rest) = if rest.length < 4 then none else some (5 + beDec (rest.take 4))) ∧
    (b = 0x30#8 ∨ b = 0x31#8 → pktLen (b :: rest) = if rest.length < 2 then none else some (3 + beDec (rest.take 2))) ∧
    (b = 0x32#8 → pktLen (b :: rest) = if rest.length < 2 then none else some (3 + 36 * beDec (rest.take 2))) ∧
    (b = 0x40#8 → pktLen (b :: rest) = rest.head?.map fun n => 2 + n.toNat)) ∧
  cut [] = some [] ∧
  (∀ s : Bytes, s ≠ [] →
    (pktLen s = none → cut s = none) ∧
    (∀ n, pktLen s = some n →
      (s.length < n → cut s = none) ∧
      (n ≤ s.length → cut s = (cut (s.drop n)).map (s.take n :: ·)))) ∧
  (∀ (b : Byte) (rest : Bytes), b ∉ assignedOpcodes → cut (b :: rest) = none)

/-- A concatenation of packets is cut into exactly those packets, without outside marks (R65). -/
def Obligations.CutOfEncodedCommands : Prop :=
  ∀ commands : List Instr, (∀ i ∈ commands, i.WellFormed) →
    cut (commands.flatMap encode) = some (commands.map encode)

/-- Packets written out in the spec's own examples decode to the commands they stand for (40_primitive_codec.md to
46_control.md, one of every family). That the fourth packet stands for the negative operand -2147483648 rests on two's
complement, general knowledge G4 (log entry 10, PRESUMED). -/
def Obligations.SpecExamplePacketsDecode : Prop :=
  decode [0x01#8] = .command .clr ∧
  decode [0x02#8, 0x07#8, 0x09#8, 0x11#8, 0x0b#8] = .command (.setmagic 0x0709110B#32) ∧
  decode [0x10#8, 0x12#8, 0x34#8] = .command (.wu16 0x1234#16) ∧
  decode [0x13#8, 0x80#8, 0x00#8, 0x00#8, 0x00#8] = .command (.wi32 (-2147483648)) ∧
  decode [0x18#8, 0x00#8, 0x00#8, 0x00#8, 0x03#8, 0x61#8, 0x62#8, 0x63#8] = .command (.raw [0x61#8, 0x62#8, 0x63#8]) ∧
  decode (0x20#8 :: List.replicate 24 0x00#8 ++ [0x01#8, 0x00#8]) =
    .command (.addr 0#64 (List.replicate 16 0x00#8) 256#16) ∧
  decode [0x31#8, 0x00#8, 0x03#8, 0x61#8, 0x2f#8, 0x62#8] = .command (.uag [0x61#8, 0x2f#8, 0x62#8]) ∧
  decode ([0x32#8, 0x00#8, 0x01#8, 0xff#8, 0xff#8, 0xff#8, 0xff#8] ++ List.replicate 32 0xab#8) =
    .command (.invv [⟨0xFFFFFFFF#32, List.replicate 32 0xab#8⟩]) ∧
  decode [0x40#8, 0x06#8, 0x76#8, 0x65#8, 0x72#8, 0x61#8, 0x63#8, 0x6b#8] = .command (.frame nameVerack)

/-! ### The command cycle (00_scope.md, 60_exceptions.md, 70_reset_and_hazards.md) -/

/-- A step runs the decoded command (R8): with no fault latched, a packet that decodes to a command is taken off the
port, the command is executed, and pc advances. -/
def Obligations.StepRunsDecodedCommand : Prop :=
  ∀ (s : State) (pkt : Bytes) (rest : List PortEvent) (i : Instr),
    s.inputs = .packet pkt :: rest → s.err = none → decode pkt = .command i →
      step s = thenDo State.advancePc (exec i { s with inputs := rest })

/-- A packet that does not decode raises E_ILLEGAL or E_MALFORMED, whatever follows the opcode, and never acts as a no-op
(R8, R67). -/
def Obligations.UndecodedPacketsFault : Prop :=
  ∀ (s : State) (pkt : Bytes) (rest : List PortEvent), s.inputs = .packet pkt :: rest → s.err = none →
    (decode pkt = .illegal →
      step s = .next { s with
        inputs := rest, pbuf := [], err := some .illegal, pc := s.pc + 1,
        responses := s.responses ++ [.fault .illegal] }) ∧
    (decode pkt = .malformed →
      step s = .next { s with
        inputs := rest, pbuf := [], err := some .malformed, pc := s.pc + 1,
        responses := s.responses ++ [.fault .malformed] })

/-- Fault entry (R224): a step on a packet that ends with a fault latched, where none was, has emptied PBUF, latched and
responded the code, and left TXQ, MAGIC and everything else as it was, with pc advanced as for any step. -/
def Obligations.FaultEntryIsPrecise : Prop :=
  ∀ (s t : State) (pkt : Bytes) (rest : List PortEvent) (c : FaultCode),
    s.inputs = .packet pkt :: rest → s.err = none → step s = .next t → t.err = some c →
      t = { s with
        inputs := rest, pbuf := [], err := some c, pc := s.pc + 1, responses := s.responses ++ [.fault c] }

/-- The latched state (R226): every packet but exactly [01] is answered E_LATCHED and changes nothing, the transport may
go on, and nothing but the packet [01] or reset ends it. -/
def Obligations.LatchedBlockRefuses : Prop :=
  ∀ (s : State) (c : FaultCode), s.err = some c →
    (∀ pkt rest, s.inputs = .packet pkt :: rest → pkt ≠ [0x01#8] →
      step s = .next { s with inputs := rest, pc := s.pc + 1, responses := s.responses ++ [.latched] }) ∧
    (∀ rest, s.inputs = .takeFrame :: rest →
      step s = .next { s with inputs := rest, txq := s.txq.drop 1, sent := s.sent ++ s.txq.take 1 }) ∧
    (∀ t, step s = .next t → t.err ≠ some c →
      s.inputs.head? = some (.packet [0x01#8]) ∨ s.inputs.head? = some .resetInput)

/-- The way out (R227): CLR leaves the latched state with PBUF empty and nothing else changed, whichever of the six codes
it was; reset leaves it too, with TXQ empty and MAGIC restored; no second fault occurs while latched. -/
def Obligations.LatchIsLeftByClrOrReset : Prop :=
  ∀ (s : State) (c : FaultCode), s.err = some c →
    (∀ rest, s.inputs = .packet [0x01#8] :: rest →
      step s = .next { s with
        inputs := rest, pbuf := [], err := none, pc := s.pc + 1, responses := s.responses ++ [.ok] }) ∧
    (∀ rest, s.inputs = .resetInput :: rest →
      ∃ t, step s = .next t ∧ t.err = none ∧ t.pbuf = [] ∧ t.txq = [] ∧ t.magic = 0xD9B4BEF9#32) ∧
    (∀ t d, step s = .next t → t.err = some d → d = c)

/-- Every step terminates and goes on: the block is never stuck (R273). -/
def Obligations.EveryStepGoesOn : Prop := ∀ s : State, ∃ t, step s = .next t

/-- `pc` (R21): 0 after reset, one more after every packet whatever the response, changed by nothing else, read and set by
no command; and the packet of a program at index `pc` is the next one executed. -/
def Obligations.PcCountsPackets : Prop :=
  (∀ cfg, (State.resetOf cfg).pc = 0) ∧
  (∀ s t : State, step s = .next t →
    (∀ pkt, s.inputs.head? = some (.packet pkt) → t.pc = s.pc + 1) ∧
    (s.inputs.head? = some .resetInput → t.pc = 0) ∧
    (s.inputs.head? = some .takeFrame → t.pc = s.pc) ∧
    (s.inputs = [] → t.pc = s.pc)) ∧
  (∀ (i : Instr) (s : State) (n : Nat),
    exec i { s with pc := n } = thenDo (fun t => { t with pc := n }) (exec i s)) ∧
  (∀ (cfg : Config) (program : List Bytes) (k : Nat), k ≤ program.length →
    ∃ t, run ((program.take k).map .packet) (State.resetOf cfg) = .next t ∧ t.pc = k ∧
      run (program.map .packet) (State.resetOf cfg) = run ((program.drop t.pc).map .packet) t)

/-- Exactly one response per packet (R221, R48 (e)): OK when the block is left with no fault, a code when the command had
none of its effect, E_LATCHED when nothing changed at all; the transport's events produce none. The record of responses
is the model's (log entry 3). -/
def Obligations.OneResponsePerPacket : Prop :=
  ∀ s t : State, step s = .next t →
    (∀ pkt rest, s.inputs = .packet pkt :: rest →
      ∃ r, t.responses = s.responses ++ [r] ∧
        (r = .ok → t.err = none) ∧
        (∀ c, r = .fault c → t.err = some c ∧ t.pbuf = [] ∧ t.txq = s.txq ∧ t.magic = s.magic) ∧
        (r = .latched → t = { s with inputs := rest, pc := s.pc + 1, responses := s.responses ++ [.latched] })) ∧
    (s.inputs.head? = some .takeFrame → t.responses = s.responses)

/-- Exactly one code is reported, the first that applies in the order of R230: the latch, the opcode, the packet length,
the command's range check, the room in PBUF. -/
def Obligations.ResponseFollowsPriority : Prop :=
  ∀ (s : State) (pkt : Bytes) (rest : List PortEvent), s.inputs = .packet pkt :: rest →
    ∃ t, step s = .next t ∧ t.responses = s.responses ++ [expectedResponse pkt s]

/-- The numeric codes (R222) and the values of ERR (R25): OK is 00, the six latched codes are 01 to 06, E_LATCHED is 07
and is no value of ERR. -/
def Obligations.FaultCodeTable : Prop :=
  Response.ok.code = 0x00#8 ∧ FaultCode.cmdName.code = 0x01#8 ∧ FaultCode.invCount.code = 0x02#8 ∧
  FaultCode.fieldLen.code = 0x03#8 ∧ FaultCode.malformed.code = 0x04#8 ∧ FaultCode.overflow.code = 0x05#8 ∧
  FaultCode.illegal.code = 0x06#8 ∧ Response.latched.code = 0x07#8 ∧
  (∀ c, (Response.fault c).code = c.code) ∧
  (∀ s : State, s.err = none → s.errOut = 0x00#8) ∧
  (∀ (s : State) (c : FaultCode), s.err = some c → s.errOut = c.code ∧ s.errOut ≠ 0x00#8 ∧ s.errOut ≠ 0x07#8)

/-- Every step keeps the invariants of R32, on every frame emitted since reset. -/
def Obligations.InvariantKeptByEveryStep : Prop :=
  ∀ s t : State, Inv s → step s = .next t → Inv t

/-- The state after reset meets the invariants of R32, for every PBUF_CAP. -/
def Obligations.InvariantHoldsAfterReset : Prop := ∀ cfg : Config, Inv (State.resetOf cfg)

/-- The invariants of every reachable state (R32): after reset and any port events whatever, (a) PBUF fits, (b) a latched
block has an empty PBUF, (c) ERR is 0 to 6, (d) every frame in TXQ is consistent. -/
def Obligations.ReachableStatesAreConsistent : Prop :=
  ∀ (cfg : Config) (events : List PortEvent), ∃ t, run events (State.resetOf cfg) = .next t ∧
    t.pbuf.length ≤ t.cap ∧
    (t.err ≠ none → t.pbuf = []) ∧
    t.errOut ∈ [0x00#8, 0x01#8, 0x02#8, 0x03#8, 0x04#8, 0x05#8, 0x06#8] ∧
    (∀ f ∈ t.txq, 24 ≤ f.length ∧ leDec (slice f 16 20) = f.length - 24 ∧
      slice f 20 24 = (hash256 (hash256 (f.drop 24))).take 4)

/-- The parameters never change (R31, R6). -/
def Obligations.ParametersNeverChange : Prop := ∀ s t : State, step s = .next t → t.cfg = s.cfg

/-- A frame once emitted stands (R23): but for reset, a step emits no frame, or one, and that one only for a FRAME packet
with no fault latched; no step changes or drops an earlier one. `emitted` joins the frames taken and the frames queued
(log entry 3). -/
def Obligations.EmittedFramesStand : Prop :=
  ∀ s t : State, step s = .next t → s.inputs.head? ≠ some .resetInput →
    t.emitted = s.emitted ∨
    ∃ name : Bytes, name.length ≤ 12 ∧ s.err = none ∧ s.inputs.head? = some (.packet (encode (.frame name))) ∧
      t.emitted = s.emitted ++ [frameBytes s.magic name s.pbuf]

/-- When and whether the transport takes frames does not matter (R267): the same events without the transport's give the
same frames emitted, the same PBUF, MAGIC, ERR and pc, and the same responses. -/
def Obligations.TransportScheduleIsInvisible : Prop :=
  ∀ (events : List PortEvent) (s : State), ∃ t u,
    run events s = .next t ∧
    run (events.filter fun e => decide (e ≠ .takeFrame)) s = .next u ∧
    t.emitted = u.emitted ∧ t.pbuf = u.pbuf ∧ t.magic = u.magic ∧ t.err = u.err ∧ t.pc = u.pc ∧
    t.responses = u.responses ∧ t.cfg = u.cfg

/-- Reset (R260, R33): every piece of state at its reset value, whatever it was before, with the parameters unchanged. That
what the outside does next is unchanged too is the model's (log entry 18, DEDUCED). -/
def Obligations.ResetValues : Prop :=
  (∀ (s : State) (rest : List PortEvent), s.inputs = .resetInput :: rest →
    ∃ t, step s = .next t ∧ t.pbuf = [] ∧ t.txq = [] ∧ t.magic = 0xD9B4BEF9#32 ∧ t.err = none ∧ t.pc = 0 ∧
      t.plen = 0#32 ∧ t.cfg = s.cfg ∧ t.inputs = rest) ∧
  (∀ cfg : Config, (State.resetOf cfg).pbuf = [] ∧ (State.resetOf cfg).txq = [] ∧
    (State.resetOf cfg).magic = 0xD9B4BEF9#32 ∧ (State.resetOf cfg).err = none ∧ (State.resetOf cfg).pc = 0 ∧
    (State.resetOf cfg).plen = 0#32)

/-- The transport removes the frame at the head of TXQ, if there is one, and touches nothing else (R267); `sent` is the
model's record of what it took (log entry 3). -/
def Obligations.TransportTakesHeadFrame : Prop :=
  ∀ (s : State) (rest : List PortEvent), s.inputs = .takeFrame :: rest →
    (∀ f more, s.txq = f :: more →
      step s = .next { s with inputs := rest, txq := more, sent := s.sent ++ [f] }) ∧
    (s.txq = [] → step s = .next { s with inputs := rest })

/-- An idle block keeps all its state (R245, R266); that a step of an idle block is such a step is the model's choice
(log entry 2). -/
def Obligations.IdleBlockKeepsState : Prop := ∀ s : State, s.inputs = [] → step s = .next s

/-- PLEN (R26): at every moment the length of PBUF, which always fits its 32 bits; 0 after reset. -/
def Obligations.PlenIsPayloadLength : Prop :=
  (∀ s : State, s.pbuf.length ≤ s.cap → s.plen.toNat = s.pbuf.length ∧ s.status.plen = s.plen) ∧
  (∀ cfg : Config, (State.resetOf cfg).plen = 0#32)

/-! ### The store primitive (20_memory.md) -/

/-- `Append` (R41): all of the bytes at the end of PBUF, none of them and E_OVERFLOW where they do not fit; no byte
already there changes; appending nothing changes nothing and cannot overflow; an appending command that passes its range
check is one append of its whole output; and nothing else brings bytes into PBUF. -/
def Obligations.AppendIsAllOrNothingAtTheEnd : Prop :=
  (∀ (bytes : Bytes) (s : State),
    (s.pbuf.length + bytes.length ≤ s.cap → append bytes s = .next (s.appended bytes) ∧
      (∀ a < s.pbuf.length, (s.appended bytes).readByte a = s.readByte a) ∧
      (∀ k < bytes.length, (s.appended bytes).readByte (s.pbuf.length + k) = bytes[k]?)) ∧
    (s.cap < s.pbuf.length + bytes.length → append bytes s = .next (s.faulted .overflow)) ∧
    (s.pbuf.length ≤ s.cap →
      append [] s = .next { s with responses := s.responses ++ [.ok] })) ∧
  (∀ (i : Instr) (n : Nat), i.WellFormed → i.appendedLength = some n → i.rangeFault = none →
    ∃ bytes : Bytes, bytes.length = n ∧ ∀ s, exec i s = append bytes s) ∧
  (∀ s t : State, step s = .next t → t.pbuf ≠ s.pbuf → t.pbuf ≠ [] →
    ∃ (i : Instr) (n : Nat) (bytes : Bytes), i.appendedLength = some n ∧
      s.inputs.head? = some (.packet (encode i)) ∧ t.pbuf = s.pbuf ++ bytes ∧ bytes.length = n)

/-- The frame of the ten appending commands (R45, R41): MAGIC, TXQ, pc and the ports are unchanged; where the command
does not fault, ERR is too, and every byte of PBUF reads as before but the bytes stored at address |PBUF|, as many as
R45's table says; where it faults, PBUF is empty. -/
def Obligations.AppendingCommandsFrame : Prop :=
  ∀ (i : Instr) (n : Nat) (s t : State), i.WellFormed → i.appendedLength = some n → exec i s = .next t →
    t.cfg = s.cfg ∧ t.txq = s.txq ∧ t.magic = s.magic ∧ t.pc = s.pc ∧ t.inputs = s.inputs ∧ t.sent = s.sent ∧
    ((t.err = s.err ∧ t.responses = s.responses ++ [.ok] ∧ t.pbuf.length = s.pbuf.length + n ∧
        ∀ a, ¬(s.pbuf.length ≤ a ∧ a < s.pbuf.length + n) → t.readByte a = s.readByte a) ∨
      ∃ c, t.err = some c ∧ t.responses = s.responses ++ [.fault c] ∧ t.pbuf = [])

/-- The frame of the three commands that append nothing (R190, R196, R210, R211, R45): FRAME leaves MAGIC, and PBUF empty;
CLR leaves MAGIC and TXQ; SETMAGIC leaves PBUF byte for byte, TXQ and ERR; none touches pc, the ports' events or the
frames already emitted. -/
def Obligations.FramingAndControlFrame : Prop :=
  ∀ s t : State,
    (∀ name, exec (.frame name) s = .next t →
      t.cfg = s.cfg ∧ t.magic = s.magic ∧ t.pc = s.pc ∧ t.inputs = s.inputs ∧ t.sent = s.sent ∧ t.pbuf = [] ∧
      ((t.err = s.err ∧ t.txq.take s.txq.length = s.txq) ∨ (t.err = some .cmdName ∧ t.txq = s.txq))) ∧
    (exec .clr s = .next t →
      t.cfg = s.cfg ∧ t.magic = s.magic ∧ t.pc = s.pc ∧ t.inputs = s.inputs ∧ t.sent = s.sent ∧ t.txq = s.txq ∧
      t.pbuf = [] ∧ t.err = none) ∧
    (∀ m, exec (.setmagic m) s = .next t →
      t.cfg = s.cfg ∧ t.err = s.err ∧ t.pc = s.pc ∧ t.inputs = s.inputs ∧ t.sent = s.sent ∧ t.txq = s.txq ∧
      t.magic = m ∧ ∀ a, t.readByte a = s.readByte a)

/-! ### The primitive codec (40_primitive_codec.md) -/

/-- `WU16 v` (R101). -/
def Obligations.Wu16Rule : Prop :=
  ∀ (v : BitVec 16) (s : State), s.err = none →
    encode (.wu16 v) = 0x10#8 :: wireBE 2 v ∧
    (s.pbuf.length + 2 ≤ s.cap →
      exec (.wu16 v) s = .next { s with
        pbuf := s.pbuf ++ [v.extractLsb' 0 8, v.extractLsb' 8 8], responses := s.responses ++ [.ok] }) ∧
    (s.cap < s.pbuf.length + 2 → exec (.wu16 v) s = .next (s.faulted .overflow))

/-- `WU32 v` (R102). -/
def Obligations.Wu32Rule : Prop :=
  ∀ (v : BitVec 32) (s : State), s.err = none →
    encode (.wu32 v) = 0x11#8 :: wireBE 4 v ∧
    (s.pbuf.length + 4 ≤ s.cap →
      exec (.wu32 v) s = .next { s with
        pbuf := s.pbuf ++ [v.extractLsb' 0 8, v.extractLsb' 8 8, v.extractLsb' 16 8, v.extractLsb' 24 8],
        responses := s.responses ++ [.ok] }) ∧
    (s.cap < s.pbuf.length + 4 → exec (.wu32 v) s = .next (s.faulted .overflow))

/-- `WU64 v` (R103): byte k is v[8k+7 : 8k]. -/
def Obligations.Wu64Rule : Prop :=
  ∀ (v : BitVec 64) (s : State), s.err = none →
    encode (.wu64 v) = 0x12#8 :: wireBE 8 v ∧
    (s.pbuf.length + 8 ≤ s.cap →
      exec (.wu64 v) s = .next { s with
        pbuf := s.pbuf ++ wireLE 8 v, responses := s.responses ++ [.ok] }) ∧
    (s.cap < s.pbuf.length + 8 → exec (.wu64 v) s = .next (s.faulted .overflow))

/-- `WI32 i` (R104): the two's-complement pattern of i, little-endian; the same bytes as WU32 of that pattern. Two's
complement is general knowledge, G4 (log entry 10). -/
def Obligations.Wi32Rule : Prop :=
  ∀ (i : Int) (s : State), InSigned 32 i → s.err = none →
    encode (.wi32 i) = 0x13#8 :: wireBE 4 (BitVec.ofInt 32 i) ∧
    (s.pbuf.length + 4 ≤ s.cap →
      exec (.wi32 i) s = .next { s with
        pbuf := s.pbuf ++ wireLE 4 (BitVec.ofInt 32 i), responses := s.responses ++ [.ok] }) ∧
    (s.cap < s.pbuf.length + 4 → exec (.wi32 i) s = .next (s.faulted .overflow)) ∧
    exec (.wi32 i) s = exec (.wu32 (BitVec.ofInt 32 i)) s

/-- `WI64 i` (R105), the same in 64 bits; two's complement is general knowledge, G4 (log entry 10). -/
def Obligations.Wi64Rule : Prop :=
  ∀ (i : Int) (s : State), InSigned 64 i → s.err = none →
    encode (.wi64 i) = 0x14#8 :: wireBE 8 (BitVec.ofInt 64 i) ∧
    (s.pbuf.length + 8 ≤ s.cap →
      exec (.wi64 i) s = .next { s with
        pbuf := s.pbuf ++ wireLE 8 (BitVec.ofInt 64 i), responses := s.responses ++ [.ok] }) ∧
    (s.cap < s.pbuf.length + 8 → exec (.wi64 i) s = .next (s.faulted .overflow)) ∧
    exec (.wi64 i) s = exec (.wu64 (BitVec.ofInt 64 i)) s

/-- `RAW s` (R106): verbatim, any length the packet can carry, the empty sequence included; a length field that disagrees
with the data is malformed. -/
def Obligations.RawRule : Prop :=
  (∀ (bytes : Bytes) (s : State), bytes.length < 2 ^ 32 → s.err = none →
    encode (.raw bytes) = 0x18#8 :: (wireBE 4 (BitVec.ofNat 32 bytes.length) ++ bytes) ∧
    (s.pbuf.length + bytes.length ≤ s.cap →
      exec (.raw bytes) s = .next { s with
        pbuf := s.pbuf ++ bytes, responses := s.responses ++ [.ok] }) ∧
    (s.cap < s.pbuf.length + bytes.length → exec (.raw bytes) s = .next (s.faulted .overflow))) ∧
  (∀ (len data : Bytes), len.length = 4 → data.length ≠ beDec len → decode (0x18#8 :: (len ++ data)) = .malformed)

/-! ### The network-address packer (41_network_address.md) -/

/-- `ADDR services, address, port` (R120): 26 bytes, services little-endian, address verbatim, port BIG-endian; a packet
of any other length than 27 is malformed. -/
def Obligations.AddrRule : Prop :=
  (∀ (services : BitVec 64) (address : Bytes) (port : BitVec 16) (s : State), address.length = 16 → s.err = none →
    encode (.addr services address port) = 0x20#8 :: (wireBE 8 services ++ address ++ wireBE 2 port) ∧
    (s.pbuf.length + 26 ≤ s.cap →
      exec (.addr services address port) s = .next { s with
        pbuf := s.pbuf ++ (wireLE 8 services ++ address ++ [port.extractLsb' 8 8, port.extractLsb' 0 8]),
        responses := s.responses ++ [.ok] }) ∧
    (s.cap < s.pbuf.length + 26 → exec (.addr services address port) s = .next (s.faulted .overflow))) ∧
  (∀ fields : Bytes, fields.length ≠ 26 → decode (0x20#8 :: fields) = .malformed)

/-! ### Variable-length fields (43_varlen_fields.md) -/

/-- `LPB s` (R151): one length byte and the bytes verbatim; over 255 bytes is E_FIELDLEN, before any overflow; a length
field that disagrees with the data is malformed. -/
def Obligations.LpbRule : Prop :=
  (∀ (bytes : Bytes) (s : State), bytes.length < 2 ^ 16 → s.err = none →
    encode (.lpb bytes) = 0x30#8 :: (wireBE 2 (BitVec.ofNat 16 bytes.length) ++ bytes) ∧
    (bytes.length ≤ 255 → s.pbuf.length + 1 + bytes.length ≤ s.cap →
      exec (.lpb bytes) s = .next { s with
        pbuf := s.pbuf ++ (BitVec.ofNat 8 bytes.length :: bytes), responses := s.responses ++ [.ok] }) ∧
    (bytes.length ≤ 255 → s.cap < s.pbuf.length + 1 + bytes.length →
      exec (.lpb bytes) s = .next (s.faulted .overflow)) ∧
    (255 < bytes.length → exec (.lpb bytes) s = .next (s.faulted .fieldLen))) ∧
  (∀ (len data : Bytes), len.length = 2 → data.length ≠ beDec len → decode (0x30#8 :: (len ++ data)) = .malformed)

/-- `UAG t` (R153): the transmitted string is the text between two bytes 2F, its length byte counts them, and it may have
255 bytes, so the text 253; the text is copied verbatim; a length field that disagrees with the data is malformed.
The delimiter's code 2F is general knowledge, G5 (log entry 12). -/
def Obligations.UagRule : Prop :=
  (∀ (text : Bytes) (s : State), text.length < 2 ^ 16 → s.err = none →
    encode (.uag text) = 0x31#8 :: (wireBE 2 (BitVec.ofNat 16 text.length) ++ text) ∧
    (text.length ≤ 253 → s.pbuf.length + text.length + 3 ≤ s.cap →
      exec (.uag text) s = .next { s with
        pbuf := s.pbuf ++ ([BitVec.ofNat 8 (text.length + 2), 0x2F#8] ++ text ++ [0x2F#8]),
        responses := s.responses ++ [.ok] }) ∧
    (text.length ≤ 253 → s.cap < s.pbuf.length + text.length + 3 →
      exec (.uag text) s = .next (s.faulted .overflow)) ∧
    (253 < text.length → exec (.uag text) s = .next (s.faulted .fieldLen))) ∧
  (∀ (len data : Bytes), len.length = 2 → data.length ≠ beDec len → decode (0x31#8 :: (len ++ data)) = .malformed)

/-- `INVV r_0, ..., r_(n-1)` (R156): a count byte, then per record the tag little-endian and the hash verbatim, in the
order given; over 255 records is E_INVCOUNT, before any overflow; a packet length other than 3 + 36 n is malformed. -/
def Obligations.InvvRule : Prop :=
  (∀ (records : List InvRecord) (s : State),
    records.length < 2 ^ 16 → (∀ r ∈ records, r.hash.length = 32) → s.err = none →
    encode (.invv records) = 0x32#8 :: (wireBE 2 (BitVec.ofNat 16 records.length) ++
      records.flatMap fun r => wireBE 4 r.tag ++ r.hash) ∧
    (records.length ≤ 255 → s.pbuf.length + 1 + 36 * records.length ≤ s.cap →
      exec (.invv records) s = .next { s with
        pbuf := s.pbuf ++ (BitVec.ofNat 8 records.length :: records.flatMap fun r => wireLE 4 r.tag ++ r.hash),
        responses := s.responses ++ [.ok] }) ∧
    (records.length ≤ 255 → s.cap < s.pbuf.length + 1 + 36 * records.length →
      exec (.invv records) s = .next (s.faulted .overflow)) ∧
    (255 < records.length → exec (.invv records) s = .next (s.faulted .invCount))) ∧
  (∀ (count data : Bytes), count.length = 2 → data.length ≠ 36 * beDec count →
    decode (0x32#8 :: (count ++ data)) = .malformed)

/-- The layout of record i (R157): it starts at offset 1 + 36 i of the appended bytes; bytes 0 to 3 are the tag,
little-endian, and bytes 4 to 35 the hash, in the order given (R158). -/
def Obligations.InventoryRecordLayout : Prop :=
  ∀ (records : List InvRecord) (s t : State) (i : Nat) (r : InvRecord),
    (∀ q ∈ records, q.hash.length = 32) → records.length ≤ 255 →
    s.pbuf.length + 1 + 36 * records.length ≤ s.cap → exec (.invv records) s = .next t → records[i]? = some r →
    (∀ k < 4, t.readByte (s.pbuf.length + 1 + 36 * i + k) = some (r.tag.extractLsb' (8 * k) 8)) ∧
    (∀ k < 32, t.readByte (s.pbuf.length + 1 + 36 * i + 4 + k) = r.hash[k]?)

/-! ### The checksum unit (42_checksum.md) -/

/-- The checksum as a number (R130, R131): with d the digest of the digest, which has 32 bytes, it is
d[0] + 256 d[1] + 65536 d[2] + 16777216 d[3]. -/
def Obligations.ChecksumIsLittleEndianRead : Prop :=
  ∀ s : Bytes, (hash256 s).length = 32 ∧
    ∃ d0 d1 d2 d3 : Byte, (hash256 (hash256 s)).take 4 = [d0, d1, d2, d3] ∧
      (checksum s).toNat = d0.toNat + 256 * d1.toNat + 65536 * d2.toNat + 16777216 * d3.toNat

/-- The four checksum bytes on the wire are the first four bytes of the second digest, in digest order (R133). -/
def Obligations.ChecksumBytesAreDigestBytes : Prop :=
  ∀ s : Bytes, wireLE 4 (checksum s) = (hash256 (hash256 s)).take 4

/-- The source's one fixed point (R134): for the empty payload the transmitted bytes are 5d f6 e0 e2, and the checksum as
a number is 0xE2E0F65D. -/
def Obligations.EmptyPayloadChecksum : Prop :=
  (hash256 (hash256 [])).take 4 = [0x5d#8, 0xf6#8, 0xe0#8, 0xe2#8] ∧ checksum [] = 0xE2E0F65D#32

/-- The hash of "abc" (R142's second row; the hash is general knowledge, log entry 4). -/
def Obligations.HashOfAbc : Prop :=
  hash256 [0x61#8, 0x62#8, 0x63#8] =
    be 4 0xba7816bf ++ be 4 0x8f01cfea ++ be 4 0x414140de ++ be 4 0x5dae2223 ++
    be 4 0xb00361a3 ++ be 4 0x96177a9c ++ be 4 0xb410ff61 ++ be 4 0xf20015ad

/-- Padding (R139, general knowledge, log entry 4): the message, 80, the least number of zeros that makes the whole a
multiple of 64 bytes, and the message's length in bits, big-endian. R139 defines it below 2^61 bytes only; that the length
field of a longer message is the bit length modulo 2^64 is the model's choice (log entry 15, DESIGN CHOICE). -/
def Obligations.PaddingIsLeast : Prop :=
  ∀ m : Bytes, ∃ z : Nat,
    Sha256.pad m = m ++ [0x80#8] ++ List.replicate z 0x00#8 ++ be 8 (8 * m.length) ∧
    64 ∣ (Sha256.pad m).length ∧ z ≤ 63 ∧
    (∀ y : Nat, 64 ∣ m.length + 1 + y + 8 → z ≤ y)

/-- A value and its bytes (R107 (d)): both byte orders are inverted by their readings, and every byte sequence is the
bytes of its reading. -/
def Obligations.ByteOrderRoundTrips : Prop :=
  (∀ n v : Nat, v < 256 ^ n → leDec (le n v) = v ∧ beDec (be n v) = v) ∧
  (∀ s : Bytes, le s.length (leDec s) = s ∧ be s.length (beDec s) = s) ∧
  (∀ i : Int, InSigned 32 i → readSignedLE (le 4 (twos 32 i)) = i) ∧
  (∀ i : Int, InSigned 64 i → readSignedLE (le 8 (twos 64 i)) = i)

/-! ### The envelope (45_envelope.md) -/

/-- `FRAME name` (R190): with at most 12 bytes of name it emits the magic, the padded name, the length, the checksum and
the payload, and empties PBUF, whatever the room in PBUF; a longer name is E_CMDNAME and nothing is emitted; a length
byte that disagrees with the name is malformed. -/
def Obligations.FrameRule : Prop :=
  (∀ (name : Bytes) (s : State), name.length < 2 ^ 8 → s.err = none →
    encode (.frame name) = 0x40#8 :: BitVec.ofNat 8 name.length :: name ∧
    (name.length ≤ 12 →
      exec (.frame name) s = .next { s with
        txq := s.txq ++ [wireLE 4 s.magic ++ (name ++ List.replicate (12 - name.length) 0x00#8) ++
          wireLE 4 (BitVec.ofNat 32 s.pbuf.length) ++ wireLE 4 (checksum s.pbuf) ++ s.pbuf],
        pbuf := [], responses := s.responses ++ [.ok] }) ∧
    (12 < name.length → exec (.frame name) s = .next (s.faulted .cmdName))) ∧
  (∀ (len : Byte) (name : Bytes), name.length ≠ len.toNat → decode (0x40#8 :: len :: name) = .malformed)

/-- The frame layout (R191), byte by byte: |f| = 24 + |p|; magic at 0, name at 4, length at 16, checksum at 20, payload at
24. -/
def Obligations.FrameLayout : Prop :=
  ∀ (magic : BitVec 32) (name p : Bytes), name.length ≤ 12 →
    (frameBytes magic name p).length = 24 + p.length ∧
    (∀ k < 4, (frameBytes magic name p)[k]? = some (magic.extractLsb' (8 * k) 8)) ∧
    (∀ k < name.length, (frameBytes magic name p)[4 + k]? = name[k]?) ∧
    (∀ k, name.length ≤ k → k < 12 → (frameBytes magic name p)[4 + k]? = some 0x00#8) ∧
    (∀ k < 4, (frameBytes magic name p)[16 + k]? = some ((BitVec.ofNat 32 p.length).extractLsb' (8 * k) 8)) ∧
    (∀ k < 4, (frameBytes magic name p)[20 + k]? = (hash256 (hash256 p))[k]?) ∧
    (∀ k, (frameBytes magic name p)[24 + k]? = p[k]?)

/-- Internal consistency (R195): the one frame a FRAME emits has a length field that is its payload's length and a
checksum field that is its payload's checksum. -/
def Obligations.EmittedFrameIsConsistent : Prop :=
  ∀ (name : Bytes) (s : State), name.length ≤ 12 → s.pbuf.length ≤ s.cap →
    ∃ t f, exec (.frame name) s = .next t ∧ t.txq = s.txq ++ [f] ∧ f.drop 24 = s.pbuf ∧
      leDec (slice f 16 20) = f.length - 24 ∧
      leDec (slice f 20 24) = (checksum (f.drop 24)).toNat

/-- After a FRAME (R196): PBUF is empty, so a second FRAME emits an empty payload and not the same payload twice. -/
def Obligations.SecondFrameHasEmptyPayload : Prop :=
  ∀ (first second : Bytes) (s : State), first.length ≤ 12 → second.length ≤ 12 → s.err = none →
    ∃ t u, exec (.frame first) s = .next t ∧ exec (.frame second) t = .next u ∧
      t.pbuf = [] ∧ t.magic = s.magic ∧ t.err = none ∧
      u.txq = s.txq ++ [frameBytes s.magic first s.pbuf, frameBytes s.magic second []] ∧
      (frameBytes s.magic second []).length = 24

/-- What MAGIC reaches (R24, R48 (d), R198): two blocks that differ only in MAGIC, given the same events, end with
emitted frames that differ at most in their first four bytes, and agree in everything else but MAGIC. -/
def Obligations.MagicReachesOnlyFrameHeads : Prop :=
  ∀ (events : List PortEvent) (s : State) (m : BitVec 32), ∃ t u,
    run events s = .next t ∧ run events { s with magic := m } = .next u ∧
    t.emitted.map (·.drop 4) = u.emitted.map (·.drop 4) ∧
    t.pbuf = u.pbuf ∧ t.err = u.err ∧ t.pc = u.pc ∧ t.responses = u.responses

/-! ### Control (46_control.md) -/

/-- `CLR` (R210): PBUF and ERR are cleared, nothing else changes; it is exactly the one-byte packet, which is executed
whether or not a fault is latched, and while one is latched nothing else is: 01 00 does not clear it, and is malformed
where none is latched. -/
def Obligations.ClrRule : Prop :=
  encode .clr = [0x01#8] ∧ decode [0x01#8] = .command .clr ∧ decode [0x01#8, 0x00#8] = .malformed ∧
  (∀ s : State, exec .clr s = .next { s with pbuf := [], err := none, responses := s.responses ++ [.ok] }) ∧
  (∀ (s : State) (rest : List PortEvent), s.inputs = .packet [0x01#8] :: rest →
    step s = .next { s with
      inputs := rest, pbuf := [], err := none, pc := s.pc + 1, responses := s.responses ++ [.ok] }) ∧
  (∀ (s : State) (pkt : Bytes) (rest : List PortEvent),
    s.inputs = .packet pkt :: rest → s.err ≠ none → pkt ≠ [0x01#8] →
    step s = .next { s with inputs := rest, pc := s.pc + 1, responses := s.responses ++ [.latched] })

/-- `SETMAGIC m` (R211): MAGIC is written, nothing else, with any value. -/
def Obligations.SetmagicRule : Prop :=
  ∀ (m : BitVec 32) (s : State), s.err = none →
    encode (.setmagic m) = 0x02#8 :: wireBE 4 m ∧
    exec (.setmagic m) s = .next { s with magic := m, responses := s.responses ++ [.ok] }

/-! ### Pseudo-instructions (44_payload_macros.md, 30_encoding.md) -/

/-- Running the expansion of an encoder from an empty PBUF with room ends with PBUF equal to BNP's function and every
response OK (R178). -/
def Obligations.EncoderExpansionBuildsPayload : Prop :=
  ∀ (p : Pseudo) (payload : Bytes) (s : State), p.wellFormed = true → p.messageName = none →
    p.payload = some payload → s.pbuf = [] → s.err = none → payload.length ≤ s.cap →
    run (packetsOf p.expand) s = .next { s with
      inputs := [], pbuf := payload, pc := s.pc + p.expand.length,
      responses := s.responses ++ List.replicate p.expand.length .ok }

/-- Running a whole message from an empty PBUF with room ends with PBUF empty and BNP's frame added to TXQ, every response
OK (R174, R175, R176, R178). -/
def Obligations.MessageExpansionEmitsFrame : Prop :=
  ∀ (p : Pseudo) (name payload : Bytes) (s : State), p.wellFormed = true → p.messageName = some name →
    p.payload = some payload → s.pbuf = [] → s.err = none → payload.length ≤ s.cap →
    ∃ f, frameReference s.magic name payload = some f ∧
      run (packetsOf p.expand) s = .next { s with
        inputs := [], txq := s.txq ++ [f], pc := s.pc + p.expand.length,
        responses := s.responses ++ List.replicate p.expand.length .ok }

/-- Failing closed across an expansion (R178, R179): where BNP's function fails, the expansion ends latched, with PBUF
empty and no frame added. -/
def Obligations.FailingExpansionEmitsNothing : Prop :=
  ∀ (p : Pseudo) (s : State), p.wellFormed = true → p.payload = none → s.err = none →
    ∃ t, run (packetsOf p.expand) s = .next t ∧ t.err ≠ none ∧ t.pbuf = [] ∧ t.txq = s.txq ∧ t.sent = s.sent ∧
      t.magic = s.magic

/-- The layout of a `version` payload (R171), with N = |ua| + 2. The bytes of its signed fields rest on two's complement and
the delimiter's code 2F on ASCII, general knowledge G4 and G5 (log entries 10 and 12, PRESUMED). -/
def Obligations.VersionPayloadLayout : Prop :=
  ∀ (p : Handshake) (b : Bytes), (Pseudo.encVersion p).wellFormed = true → encodeHandshake p = some b →
    b.length = 85 + (p.userAgent.length + 2) ∧
    slice b 0 4 = wireLE 4 (BitVec.ofInt 32 p.protocolVersion) ∧
    slice b 4 12 = wireLE 8 p.services ∧
    slice b 12 20 = wireLE 8 (BitVec.ofInt 64 p.timestamp) ∧
    slice b 20 46 = wireLE 8 p.addressReceiving.services ++ p.addressReceiving.address ++
      wireBE 2 p.addressReceiving.port ∧
    slice b 46 72 = wireLE 8 p.addressFrom.services ++ p.addressFrom.address ++ wireBE 2 p.addressFrom.port ∧
    slice b 72 80 = wireLE 8 p.nonce ∧
    slice b 80 81 = [BitVec.ofNat 8 (p.userAgent.length + 2)] ∧
    slice b 81 (81 + (p.userAgent.length + 2)) = [0x2F#8] ++ p.userAgent ++ [0x2F#8] ∧
    slice b (81 + (p.userAgent.length + 2)) (85 + (p.userAgent.length + 2)) =
      wireLE 4 (BitVec.ofInt 32 p.startHeight)

/-- The assembler refuses what no packet can carry (R68): every command it assembles fits a packet, and decodes back. -/
def Obligations.AssembledCommandsFitPackets : Prop :=
  ∀ (text : List Char) (commands : List Instr), Asm.program text = some commands →
    ∀ i ∈ commands, i.WellFormed ∧ decode (encode i) = .command i
end

