-- ==== Sys2Proof/Laws/Bytes.lean ====
section
/-! SUPPORT. Laws of the byte-order notation: lengths, the round trips of R107 (d) (40_primitive_codec.md), slices. -/

namespace Sys2Proof.Machine

@[simp] theorem le_length (n v : Nat) : (le n v).length = n := by
  induction n generalizing v with
  | zero => rfl
  | succ n ih => simp [le, ih]

@[simp] theorem be_length (n v : Nat) : (be n v).length = n := by simp [be]

/-- Byte k of `le_N(v)` is floor(v / 2^(8k)) mod 256. -/
theorem le_getElem? (n v k : Nat) (h : k < n) : (le n v)[k]? = some (BitVec.ofNat 8 (v / 256 ^ k)) := by
  induction n generalizing v k with
  | zero => omega
  | succ n ih =>
    cases k with
    | zero => simp [le]
    | succ k =>
      rw [le, List.getElem?_cons_succ, ih _ _ (by omega), Nat.div_div_eq_div_mul, pow_succ, mul_comm]

theorem be_getElem? (n v k : Nat) (h : k < n) :
    (be n v)[k]? = some (BitVec.ofNat 8 (v / 256 ^ (n - 1 - k))) := by
  rw [be, List.getElem?_reverse (by simpa using h), le_length, le_getElem? _ _ _ (by omega)]

theorem leDec_lt (s : Bytes) : leDec s < 256 ^ s.length := by
  induction s with
  | nil => simp [leDec]
  | cons b s ih =>
    have := b.isLt
    simp only [leDec, List.length_cons, pow_succ]
    omega

theorem leDec_append (s t : Bytes) : leDec (s ++ t) = leDec s + 256 ^ s.length * leDec t := by
  induction s with
  | nil => simp [leDec]
  | cons b s ih =>
    simp only [List.cons_append, leDec, ih, List.length_cons, pow_succ]
    ring

theorem leDec_le_mod (n v : Nat) : leDec (le n v) = v % 256 ^ n := by
  induction n generalizing v with
  | zero => simp [le, leDec, Nat.mod_one]
  | succ n ih =>
    rw [pow_succ, mul_comm (256 ^ n) 256, Nat.mod_mul]
    simp [le, leDec, ih]

/-- R107 (d): le_dec(le_N(v)) = v. -/
theorem leDec_le {n v : Nat} (h : v < 256 ^ n) : leDec (le n v) = v := by
  rw [leDec_le_mod, Nat.mod_eq_of_lt h]

/-- The other direction: le_N(le_dec(s)) = s, the step R133 (42_checksum.md) rests on. -/
theorem le_leDec (s : Bytes) : le s.length (leDec s) = s := by
  induction s with
  | nil => rfl
  | cons b s ih =>
    have hb := b.isLt
    simp only [List.length_cons, le, leDec]
    rw [show (b.toNat + 256 * leDec s) / 256 = leDec s by omega, ih]
    congr 1
    apply BitVec.eq_of_toNat_eq
    simp only [BitVec.toNat_ofNat]
    omega

theorem beDec_lt (s : Bytes) : beDec s < 256 ^ s.length := by simpa [beDec] using leDec_lt s.reverse

/-- R107 (d): be_dec(be_N(v)) = v. -/
theorem beDec_be {n v : Nat} (h : v < 256 ^ n) : beDec (be n v) = v := by simp [beDec, be, leDec_le h]

theorem be_beDec (s : Bytes) : be s.length (beDec s) = s := by
  have := le_leDec s.reverse
  rw [List.length_reverse] at this
  rw [be, beDec, this, List.reverse_reverse]

theorem be_beDec_of_length {n : Nat} {s : Bytes} (h : s.length = n) : be n (beDec s) = s := h ▸ be_beDec s

theorem beDec_lt_of_length {n : Nat} {s : Bytes} (h : s.length = n) : beDec s < 256 ^ n := h ▸ beDec_lt s

@[simp] theorem slice_length (s : Bytes) (i j : Nat) : (slice s i j).length = min (j - i) (s.length - i) := by
  simp [slice]

/-- A slice that begins where a prefix ends. -/
theorem slice_append {s t u : Bytes} {i j : Nat} (hi : s.length = i) (hj : i + t.length = j) :
    slice (s ++ (t ++ u)) i j = t := by
  subst hi hj
  simp [slice]

theorem slice_append_end {s t : Bytes} {i j : Nat} (hi : s.length = i) (hj : i + t.length = j) :
    slice (s ++ t) i j = t := by simpa using slice_append (u := []) hi hj

/-- Slices that follow one another join. -/
theorem slice_join (s : Bytes) {i j k : Nat} (hij : i ≤ j) (hjk : j ≤ k) : slice s i j ++ slice s j k = slice s i k := by
  obtain ⟨a, rfl⟩ := Nat.exists_eq_add_of_le hij
  obtain ⟨b, rfl⟩ := Nat.exists_eq_add_of_le hjk
  simp only [slice, show i + a - i = a by omega, show i + a + b - (i + a) = b by omega,
    show i + a + b - i = a + b by omega, List.take_add, List.drop_drop]

/-- A slice inside a prefix does not see what follows it. -/
theorem slice_append_left {s t : Bytes} {i j : Nat} (h : j ≤ s.length) : slice (s ++ t) i j = slice s i j := by
  rcases Nat.lt_or_ge i j with hij | hij
  · simp only [slice]
    rw [List.drop_append_of_le_length (by omega), List.take_append_of_le_length (by simp; omega)]
  · simp [slice, Nat.sub_eq_zero_of_le hij]

theorem slice_prefix {s t : Bytes} {j : Nat} (h : s.length = j) : slice (s ++ t) 0 j = s := by
  subst h
  simp [slice]

theorem slice_full (s : Bytes) {j : Nat} (h : s.length = j) : slice s 0 j = s := by simp [slice, ← h]

theorem slice_to_end (s : Bytes) {i j : Nat} (h : s.length = j) : slice s i j = s.drop i := by
  simp [slice, ← h]

theorem twos_lt (n : Nat) (i : Int) : twos n i < 2 ^ n := by
  have h : (0 : Int) < 2 ^ n := by positivity
  have := Int.emod_lt_of_pos i h
  have := Int.emod_nonneg i h.ne'
  unfold twos
  zify
  omega

/-- Reading a pattern signed undoes taking it (R62 of 30_encoding.md against R104, R105 of 40_primitive_codec.md). -/
theorem signed_twos {n : Nat} {i : Int} (hn : 0 < n) (h : InSigned n i) : signed n (twos n i) = i := by
  obtain ⟨m, rfl⟩ := Nat.exists_eq_succ_of_ne_zero hn.ne'
  have hp : (0 : Int) < 2 ^ m := by positivity
  have h2 : (2 : Int) ^ (m + 1) = 2 * 2 ^ m := by ring
  simp only [InSigned, Nat.succ_eq_add_one, Nat.add_sub_cancel] at h
  simp only [signed, twos, Nat.succ_eq_add_one, Nat.add_sub_cancel]
  obtain ⟨k, hk⟩ := Int.eq_ofNat_of_zero_le (Int.emod_nonneg i (show (2 : Int) ^ (m + 1) ≠ 0 by positivity))
  rw [hk, Int.toNat_natCast]
  have hlt : k < 2 ^ m ↔ (k : Int) < 2 ^ m := by norm_cast
  rcases Int.lt_or_le i 0 with hi | hi
  · have hk' : i % 2 ^ (m + 1) = i + 2 ^ (m + 1) := by
      rw [← Int.add_emod_right]
      exact Int.emod_eq_of_lt (by omega) (by omega)
    rw [if_neg (by rw [hlt]; omega)]
    omega
  · rw [Int.emod_eq_of_lt hi (by omega)] at hk
    rw [if_pos (by rw [hlt]; omega), ← hk]

theorem signed_range {n v : Nat} (hn : 0 < n) (h : v < 2 ^ n) : InSigned n (signed n v) := by
  obtain ⟨m, rfl⟩ := Nat.exists_eq_succ_of_ne_zero hn.ne'
  have hp : (2 : Int) ^ (m + 1) = 2 * 2 ^ m := by ring
  have h' : (v : Int) < 2 ^ (m + 1) := by exact_mod_cast h
  have hpos : (0 : Int) < 2 ^ m := by positivity
  simp only [InSigned, signed, Nat.succ_eq_add_one, Nat.add_sub_cancel]
  split
  · rename_i hv
    have : (v : Int) < 2 ^ m := by exact_mod_cast hv
    omega
  · rename_i hv
    have : (2 ^ m : Int) ≤ v := by exact_mod_cast Nat.le_of_not_lt hv
    omega

theorem twos_signed {n v : Nat} (h : v < 2 ^ n) : twos n (signed n v) = v := by
  have h' : (v : Int) < 2 ^ n := by exact_mod_cast h
  unfold twos signed
  split
  · rw [Int.emod_eq_of_lt (by omega) h', Int.toNat_natCast]
  · rw [Int.sub_emod_right, Int.emod_eq_of_lt (by omega) h', Int.toNat_natCast]

end Sys2Proof.Machine
end

