-- ==== Sys2Proof/Laws/Checksum.lean ====
section
/-! SUPPORT. Laws of the checksum unit: digest length, padding, the checksum's bytes on the wire. -/

namespace Sys2Proof.Machine

@[simp] theorem Sha256.bytes_length (x : Sha256.Words8) : x.bytes.length = 32 := by simp [Sha256.Words8.bytes]

@[simp] theorem sha256_length (m : Bytes) : (sha256 m).length = 32 := by simp [sha256]

/-- A digest has 32 bytes (R132 of 42_checksum.md). -/
@[simp] theorem hash256_length (m : Bytes) : (hash256 m).length = 32 := by simp [hash256]

/-- The length of the padded message: the least multiple of 64 with room for the message and nine more bytes (R139). -/
theorem Sha256.pad_length (m : Bytes) : (Sha256.pad m).length = 64 * ((m.length + 72) / 64) := by
  simp only [Sha256.pad, Sha256.zeroCount, List.length_append, List.length_cons, List.length_nil,
    List.length_replicate, be_length]
  omega

@[simp] theorem Sha256.pieces_length (k n : Nat) (s : Bytes) : (Sha256.pieces k n s).length = n := by
  induction n generalizing s with
  | zero => rfl
  | succ n ih => simp [Sha256.pieces, ih]

@[simp] theorem Sha256.extend_length (n : Nat) (w : List Word32) : (Sha256.extend n w).length = n + w.length := by
  induction n generalizing w with
  | zero => simp [Sha256.extend]
  | succ n ih => simp [Sha256.extend, ih]; omega

@[simp] theorem Sha256.blockWords_length (block : Bytes) : (Sha256.blockWords block).length = 16 := by
  simp [Sha256.blockWords]

/-- The schedule has the sixty-four words W[0..63] (R140). -/
@[simp] theorem Sha256.schedule_length (block : Bytes) : (Sha256.schedule block).length = 64 := by
  simp [Sha256.schedule]

/-- The checksum as a number is the little-endian reading of four digest bytes, which always fits (R130, R131). -/
theorem checksum_toNat (s : Bytes) : (checksum s).toNat = leDec ((hash256 (hash256 s)).take 4) := by
  have h := leDec_lt ((hash256 (hash256 s)).take 4)
  simp only [List.length_take, hash256_length] at h
  simp only [checksum, BitVec.toNat_ofNat]
  exact Nat.mod_eq_of_lt (by simpa using h)

end Sys2Proof.Machine
end

