-- ==== Sys2Proof/Laws/Decode.lean ====
section
/-! SUPPORT. Laws of the opcode map, of packet lengths and of inventory records in a packet. -/

namespace Sys2Proof

open Machine

/-- The thirteen opcodes differ, so each byte stands for at most one command (R64 of 30_encoding.md). -/
@[simp] theorem Op.ofByte_code (o : Op) : Op.ofByte o.code = some o := by cases o <;> rfl

theorem Op.mem_all (o : Op) : o ∈ Op.all := by cases o <;> decide

/-- A byte decodes to an opcode only where all its eight bits are that opcode's. -/
theorem Op.ofByte_eq_some {b : Byte} {o : Op} : Op.ofByte b = some o ↔ b = o.code := by
  constructor
  · intro h
    have e := List.find?_some (p := fun o : Op => o.code == b) h
    exact (beq_iff_eq.mp e).symm
  · rintro rfl
    simp

theorem Op.ofByte_eq_none {b : Byte} : Op.ofByte b = none ↔ ∀ o : Op, b ≠ o.code := by
  constructor
  · rintro h o rfl
    simp at h
  · intro h
    cases e : Op.ofByte b with
    | none => rfl
    | some o => exact absurd (Op.ofByte_eq_some.mp e) (h o)

/-- `PktLen` reads only the first bytes of a packet: what follows a packet does not change it (R65). -/
theorem Format.packetLength_append {f : Format} {pkt rest : Bytes} {n : Nat} (h : f.packetLength pkt = some n) :
    f.packetLength (pkt ++ rest) = some n := by
  cases f <;> simp only [Format.packetLength] at h ⊢ <;> try exact h
  all_goals
    split at h
    · cases h
    · rw [if_neg (by simp; omega), slice_append_left (by omega)]
      exact h

theorem pktLen_append {pkt rest : Bytes} {n : Nat} (h : pktLen pkt = some n) : pktLen (pkt ++ rest) = some n := by
  cases pkt with
  | nil => cases h
  | cons b pkt =>
    simp only [pktLen, List.cons_append] at h ⊢
    split at h
    · cases h
    · exact Format.packetLength_append h

/-- A packet has at least its opcode byte (R60). -/
theorem pktLen_pos {pkt : Bytes} {n : Nat} (h : pktLen pkt = some n) : 0 < n := by
  cases pkt with
  | nil => cases h
  | cons b pkt =>
    simp only [pktLen] at h
    split at h
    · cases h
    · rename_i o _
      cases o <;> simp only [Op.format, Format.packetLength] at h <;>
        first
        | (cases h; omega)
        | (split at h
           · cases h
           · cases h; omega)

theorem encodeRecord_length {r : InvRecord} (h : r.WellFormed) : (encodeRecord r).length = Config.recLen := by
  simp only [InvRecord.WellFormed] at h
  simp [encodeRecord, h, Config.hashLen, Config.recLen]

/-- n records take 36 n bytes of a packet (R61). -/
theorem encodeRecords_length {rs : List InvRecord} (h : ∀ r ∈ rs, r.WellFormed) :
    (rs.flatMap encodeRecord).length = Config.recLen * rs.length := by
  induction rs with
  | nil => rfl
  | cons r rs ih =>
    rw [List.flatMap_cons, List.length_append, encodeRecord_length (h r (by simp)),
      ih fun q hq => h q (by simp [hq]), List.length_cons]
    ring

/-- Records laid end to end are read back in order (R61, R62). -/
theorem decodeRecords_encode {rs : List InvRecord} (h : ∀ r ∈ rs, r.WellFormed) :
    decodeRecords rs.length (rs.flatMap encodeRecord) = rs := by
  induction rs with
  | nil => rfl
  | cons r rs ih =>
    have hr : r.hash.length = 32 := h r (by simp)
    have hl := encodeRecord_length (h r (by simp))
    rw [List.length_cons, List.flatMap_cons, decodeRecords]
    rw [show Config.recLen = (encodeRecord r).length from hl.symm, List.drop_left, ih fun q hq => h q (by simp [hq]), hl]
    simp only [encodeRecord, List.append_assoc]
    rw [slice_prefix (be_length _ _), slice_append (be_length _ _) (by rw [hr]),
      beDec_be (by simpa using r.tag.isLt)]
    simp

end Sys2Proof
end

