-- ==== Sys2Proof/Laws/State.lean ====
section
/-! SUPPORT. What each update of the state leaves in each field, so that no later proof unfolds a record update. -/

namespace Sys2Proof.Machine

@[simp] theorem respond_cfg (r : Response) (s : State) : (State.respond r s).cfg = s.cfg := rfl
@[simp] theorem respond_pbuf (r : Response) (s : State) : (State.respond r s).pbuf = s.pbuf := rfl
@[simp] theorem respond_txq (r : Response) (s : State) : (State.respond r s).txq = s.txq := rfl
@[simp] theorem respond_magic (r : Response) (s : State) : (State.respond r s).magic = s.magic := rfl
@[simp] theorem respond_err (r : Response) (s : State) : (State.respond r s).err = s.err := rfl
@[simp] theorem respond_pc (r : Response) (s : State) : (State.respond r s).pc = s.pc := rfl
@[simp] theorem respond_inputs (r : Response) (s : State) : (State.respond r s).inputs = s.inputs := rfl
@[simp] theorem respond_responses (r : Response) (s : State) : (State.respond r s).responses = s.responses ++ [r] := rfl
@[simp] theorem respond_sent (r : Response) (s : State) : (State.respond r s).sent = s.sent := rfl

@[simp] theorem advancePc_cfg (s : State) : (State.advancePc s).cfg = s.cfg := rfl
@[simp] theorem advancePc_pbuf (s : State) : (State.advancePc s).pbuf = s.pbuf := rfl
@[simp] theorem advancePc_txq (s : State) : (State.advancePc s).txq = s.txq := rfl
@[simp] theorem advancePc_magic (s : State) : (State.advancePc s).magic = s.magic := rfl
@[simp] theorem advancePc_err (s : State) : (State.advancePc s).err = s.err := rfl
@[simp] theorem advancePc_pc (s : State) : (State.advancePc s).pc = s.pc + 1 := rfl
@[simp] theorem advancePc_inputs (s : State) : (State.advancePc s).inputs = s.inputs := rfl
@[simp] theorem advancePc_responses (s : State) : (State.advancePc s).responses = s.responses := rfl
@[simp] theorem advancePc_sent (s : State) : (State.advancePc s).sent = s.sent := rfl

@[simp] theorem clearFault_cfg (s : State) : (clearFault s).cfg = s.cfg := rfl
@[simp] theorem clearFault_pbuf (s : State) : (clearFault s).pbuf = [] := rfl
@[simp] theorem clearFault_txq (s : State) : (clearFault s).txq = s.txq := rfl
@[simp] theorem clearFault_magic (s : State) : (clearFault s).magic = s.magic := rfl
@[simp] theorem clearFault_err (s : State) : (clearFault s).err = none := rfl
@[simp] theorem clearFault_pc (s : State) : (clearFault s).pc = s.pc := rfl
@[simp] theorem clearFault_inputs (s : State) : (clearFault s).inputs = s.inputs := rfl
@[simp] theorem clearFault_responses (s : State) : (clearFault s).responses = s.responses := rfl
@[simp] theorem clearFault_sent (s : State) : (clearFault s).sent = s.sent := rfl

@[simp] theorem emit_cfg (f : Bytes) (s : State) : (emit f s).cfg = s.cfg := rfl
@[simp] theorem emit_pbuf (f : Bytes) (s : State) : (emit f s).pbuf = s.pbuf := rfl
@[simp] theorem emit_txq (f : Bytes) (s : State) : (emit f s).txq = s.txq ++ [f] := rfl
@[simp] theorem emit_magic (f : Bytes) (s : State) : (emit f s).magic = s.magic := rfl
@[simp] theorem emit_err (f : Bytes) (s : State) : (emit f s).err = s.err := rfl
@[simp] theorem emit_pc (f : Bytes) (s : State) : (emit f s).pc = s.pc := rfl
@[simp] theorem emit_inputs (f : Bytes) (s : State) : (emit f s).inputs = s.inputs := rfl
@[simp] theorem emit_responses (f : Bytes) (s : State) : (emit f s).responses = s.responses := rfl
@[simp] theorem emit_sent (f : Bytes) (s : State) : (emit f s).sent = s.sent := rfl

@[simp] theorem appended_cfg (s : State) (bytes : Bytes) : (State.appended s bytes).cfg = s.cfg := rfl
@[simp] theorem appended_pbuf (s : State) (bytes : Bytes) : (State.appended s bytes).pbuf = s.pbuf ++ bytes := rfl
@[simp] theorem appended_txq (s : State) (bytes : Bytes) : (State.appended s bytes).txq = s.txq := rfl
@[simp] theorem appended_magic (s : State) (bytes : Bytes) : (State.appended s bytes).magic = s.magic := rfl
@[simp] theorem appended_err (s : State) (bytes : Bytes) : (State.appended s bytes).err = s.err := rfl
@[simp] theorem appended_pc (s : State) (bytes : Bytes) : (State.appended s bytes).pc = s.pc := rfl
@[simp] theorem appended_inputs (s : State) (bytes : Bytes) : (State.appended s bytes).inputs = s.inputs := rfl
@[simp] theorem appended_responses (s : State) (bytes : Bytes) : (State.appended s bytes).responses = s.responses ++ [.ok] := rfl
@[simp] theorem appended_sent (s : State) (bytes : Bytes) : (State.appended s bytes).sent = s.sent := rfl

@[simp] theorem faulted_cfg (s : State) (c : FaultCode) : (State.faulted s c).cfg = s.cfg := rfl
@[simp] theorem faulted_pbuf (s : State) (c : FaultCode) : (State.faulted s c).pbuf = [] := rfl
@[simp] theorem faulted_txq (s : State) (c : FaultCode) : (State.faulted s c).txq = s.txq := rfl
@[simp] theorem faulted_magic (s : State) (c : FaultCode) : (State.faulted s c).magic = s.magic := rfl
@[simp] theorem faulted_err (s : State) (c : FaultCode) : (State.faulted s c).err = some c := rfl
@[simp] theorem faulted_pc (s : State) (c : FaultCode) : (State.faulted s c).pc = s.pc := rfl
@[simp] theorem faulted_inputs (s : State) (c : FaultCode) : (State.faulted s c).inputs = s.inputs := rfl
@[simp] theorem faulted_responses (s : State) (c : FaultCode) : (State.faulted s c).responses = s.responses ++ [.fault c] := rfl
@[simp] theorem faulted_sent (s : State) (c : FaultCode) : (State.faulted s c).sent = s.sent := rfl

@[simp] theorem withInputs_cfg (s : State) (events : List PortEvent) : (State.withInputs s events).cfg = s.cfg := rfl
@[simp] theorem withInputs_pbuf (s : State) (events : List PortEvent) : (State.withInputs s events).pbuf = s.pbuf := rfl
@[simp] theorem withInputs_txq (s : State) (events : List PortEvent) : (State.withInputs s events).txq = s.txq := rfl
@[simp] theorem withInputs_magic (s : State) (events : List PortEvent) : (State.withInputs s events).magic = s.magic := rfl
@[simp] theorem withInputs_err (s : State) (events : List PortEvent) : (State.withInputs s events).err = s.err := rfl
@[simp] theorem withInputs_pc (s : State) (events : List PortEvent) : (State.withInputs s events).pc = s.pc := rfl
@[simp] theorem withInputs_inputs (s : State) (events : List PortEvent) : (State.withInputs s events).inputs = events := rfl
@[simp] theorem withInputs_responses (s : State) (events : List PortEvent) : (State.withInputs s events).responses = s.responses := rfl
@[simp] theorem withInputs_sent (s : State) (events : List PortEvent) : (State.withInputs s events).sent = s.sent := rfl

@[simp] theorem presentPacket_cfg (pkt : Bytes) (s : State) : (presentPacket pkt s).cfg = s.cfg := rfl
@[simp] theorem presentPacket_pbuf (pkt : Bytes) (s : State) : (presentPacket pkt s).pbuf = s.pbuf := rfl
@[simp] theorem presentPacket_txq (pkt : Bytes) (s : State) : (presentPacket pkt s).txq = s.txq := rfl
@[simp] theorem presentPacket_magic (pkt : Bytes) (s : State) : (presentPacket pkt s).magic = s.magic := rfl
@[simp] theorem presentPacket_err (pkt : Bytes) (s : State) : (presentPacket pkt s).err = s.err := rfl
@[simp] theorem presentPacket_pc (pkt : Bytes) (s : State) : (presentPacket pkt s).pc = s.pc := rfl
@[simp] theorem presentPacket_inputs (pkt : Bytes) (s : State) : (presentPacket pkt s).inputs = .packet pkt :: s.inputs := rfl
@[simp] theorem presentPacket_responses (pkt : Bytes) (s : State) : (presentPacket pkt s).responses = s.responses := rfl
@[simp] theorem presentPacket_sent (pkt : Bytes) (s : State) : (presentPacket pkt s).sent = s.sent := rfl

@[simp] theorem resetBlock_cfg (s : State) : (resetBlock s).cfg = s.cfg := rfl
@[simp] theorem resetBlock_pbuf (s : State) : (resetBlock s).pbuf = [] := rfl
@[simp] theorem resetBlock_txq (s : State) : (resetBlock s).txq = [] := rfl
@[simp] theorem resetBlock_magic (s : State) : (resetBlock s).magic = Config.resetMagic := rfl
@[simp] theorem resetBlock_err (s : State) : (resetBlock s).err = none := rfl
@[simp] theorem resetBlock_pc (s : State) : (resetBlock s).pc = 0 := rfl
@[simp] theorem resetBlock_inputs (s : State) : (resetBlock s).inputs = s.inputs := rfl
@[simp] theorem resetBlock_responses (s : State) : (resetBlock s).responses = [] := rfl
@[simp] theorem resetBlock_sent (s : State) : (resetBlock s).sent = [] := rfl

@[simp] theorem resetOf_cfg (cfg : Config) : (State.resetOf cfg).cfg = cfg := rfl
@[simp] theorem resetOf_pbuf (cfg : Config) : (State.resetOf cfg).pbuf = [] := rfl
@[simp] theorem resetOf_txq (cfg : Config) : (State.resetOf cfg).txq = [] := rfl
@[simp] theorem resetOf_magic (cfg : Config) : (State.resetOf cfg).magic = Config.resetMagic := rfl
@[simp] theorem resetOf_err (cfg : Config) : (State.resetOf cfg).err = none := rfl
@[simp] theorem resetOf_pc (cfg : Config) : (State.resetOf cfg).pc = 0 := rfl
@[simp] theorem resetOf_inputs (cfg : Config) : (State.resetOf cfg).inputs = [] := rfl
@[simp] theorem resetOf_responses (cfg : Config) : (State.resetOf cfg).responses = [] := rfl
@[simp] theorem resetOf_sent (cfg : Config) : (State.resetOf cfg).sent = [] := rfl

@[simp] theorem framed_cfg (s : State) (name : Bytes) : (State.framed s name).cfg = s.cfg := rfl
@[simp] theorem framed_pbuf (s : State) (name : Bytes) : (State.framed s name).pbuf = [] := rfl
@[simp] theorem framed_txq (s : State) (name : Bytes) : (State.framed s name).txq = s.txq ++ [frameBytes s.magic name s.pbuf] := rfl
@[simp] theorem framed_magic (s : State) (name : Bytes) : (State.framed s name).magic = s.magic := rfl
@[simp] theorem framed_err (s : State) (name : Bytes) : (State.framed s name).err = s.err := rfl
@[simp] theorem framed_pc (s : State) (name : Bytes) : (State.framed s name).pc = s.pc := rfl
@[simp] theorem framed_inputs (s : State) (name : Bytes) : (State.framed s name).inputs = s.inputs := rfl
@[simp] theorem framed_responses (s : State) (name : Bytes) : (State.framed s name).responses = s.responses ++ [.ok] := rfl
@[simp] theorem framed_sent (s : State) (name : Bytes) : (State.framed s name).sent = s.sent := rfl

@[simp] theorem remagicked_cfg (s : State) (m : BitVec 32) : (State.remagicked s m).cfg = s.cfg := rfl
@[simp] theorem remagicked_pbuf (s : State) (m : BitVec 32) : (State.remagicked s m).pbuf = s.pbuf := rfl
@[simp] theorem remagicked_txq (s : State) (m : BitVec 32) : (State.remagicked s m).txq = s.txq := rfl
@[simp] theorem remagicked_magic (s : State) (m : BitVec 32) : (State.remagicked s m).magic = m := rfl
@[simp] theorem remagicked_err (s : State) (m : BitVec 32) : (State.remagicked s m).err = s.err := rfl
@[simp] theorem remagicked_pc (s : State) (m : BitVec 32) : (State.remagicked s m).pc = s.pc := rfl
@[simp] theorem remagicked_inputs (s : State) (m : BitVec 32) : (State.remagicked s m).inputs = s.inputs := rfl
@[simp] theorem remagicked_responses (s : State) (m : BitVec 32) : (State.remagicked s m).responses = s.responses ++ [.ok] := rfl
@[simp] theorem remagicked_sent (s : State) (m : BitVec 32) : (State.remagicked s m).sent = s.sent := rfl

@[simp] theorem cleared_cfg (s : State) : (State.cleared s).cfg = s.cfg := rfl
@[simp] theorem cleared_pbuf (s : State) : (State.cleared s).pbuf = [] := rfl
@[simp] theorem cleared_txq (s : State) : (State.cleared s).txq = s.txq := rfl
@[simp] theorem cleared_magic (s : State) : (State.cleared s).magic = s.magic := rfl
@[simp] theorem cleared_err (s : State) : (State.cleared s).err = none := rfl
@[simp] theorem cleared_pc (s : State) : (State.cleared s).pc = s.pc := rfl
@[simp] theorem cleared_inputs (s : State) : (State.cleared s).inputs = s.inputs := rfl
@[simp] theorem cleared_responses (s : State) : (State.cleared s).responses = s.responses ++ [.ok] := rfl
@[simp] theorem cleared_sent (s : State) : (State.cleared s).sent = s.sent := rfl

@[simp] theorem respond_cap (r : Response) (s : State) : (State.respond r s).cap = s.cap := rfl
@[simp] theorem appended_cap (s : State) (bytes : Bytes) : (State.appended s bytes).cap = s.cap := rfl
@[simp] theorem faulted_cap (s : State) (c : FaultCode) : (State.faulted s c).cap = s.cap := rfl
@[simp] theorem advancePc_cap (s : State) : (State.advancePc s).cap = s.cap := rfl
@[simp] theorem withInputs_cap (s : State) (events : List PortEvent) : (State.withInputs s events).cap = s.cap := rfl

/-- What taking a frame leaves in a field it does not name. -/
theorem transportTake_other (s : State) :
    (transportTake s).cfg = s.cfg ∧ (transportTake s).pbuf = s.pbuf ∧ (transportTake s).magic = s.magic ∧
    (transportTake s).err = s.err ∧ (transportTake s).pc = s.pc ∧ (transportTake s).inputs = s.inputs ∧
    (transportTake s).responses = s.responses := by
  unfold transportTake
  split <;> simp

@[simp] theorem transportTake_emitted (s : State) : (transportTake s).emitted = s.emitted := by
  unfold transportTake State.emitted
  split <;> simp_all

end Sys2Proof.Machine
end

