-- ==== Sys2Proof/Laws/Ops.lean ====
section
/-! SUPPORT. What each shared operation can do, said once: callers cite these and do not unfold the operations. -/

namespace Sys2Proof.Machine

theorem succeed_eq (s : State) : succeed s = .next { s with responses := s.responses ++ [.ok] } := rfl

/-- Fault entry (R224 of 60_exceptions.md). -/
@[simp] theorem raiseFault_eq (c : FaultCode) (s : State) : raiseFault c s = .next (s.faulted c) := rfl

theorem append_of_fits {bytes : Bytes} {s : State} (h : s.pbuf.length + bytes.length ≤ s.cap) :
    append bytes s = .next (s.appended bytes) := by
  rw [append, if_neg (by omega)]
  rfl

theorem append_of_overflow {bytes : Bytes} {s : State} (h : s.cap < s.pbuf.length + bytes.length) :
    append bytes s = .next (s.faulted .overflow) := by
  rw [append, if_pos h]
  rfl

/-- The append primitive has exactly these two outcomes (R41 of 20_memory.md). -/
theorem append_spec (bytes : Bytes) (s : State) : AppendsOrOverflows (append bytes s) s bytes :=
  ⟨append_of_fits, append_of_overflow⟩

theorem append_cases (bytes : Bytes) (s : State) :
    (s.pbuf.length + bytes.length ≤ s.cap ∧ append bytes s = .next (s.appended bytes)) ∨
    (s.cap < s.pbuf.length + bytes.length ∧ append bytes s = .next (s.faulted .overflow)) := by
  rcases Nat.lt_or_ge s.cap (s.pbuf.length + bytes.length) with h | h
  · exact .inr ⟨h, append_of_overflow h⟩
  · exact .inl ⟨h, append_of_fits h⟩

/-- `MemWrite` where it is defined is `Append` (section 6 of 00_scope.md). -/
theorem memWrite_at_end (v : Bytes) (s : State) : memWrite s.pbuf.length v.length v s = some (append v s) := by
  simp [memWrite]

/-- Reading the whole of PBUF, as FRAME does (R190 of 45_envelope.md). -/
theorem memRead_all (s : State) : memRead 0 s.pbuf.length s = some s.pbuf := by simp [memRead, slice]

/-- An append leaves every byte already in PBUF as it was (R41). -/
theorem readByte_appended {s : State} {bytes : Bytes} {a : Nat} (h : a < s.pbuf.length) :
    (s.appended bytes).readByte a = s.readByte a := by
  simp [State.readByte, List.getElem?_append_left h]

/-- The bytes appended stand at the old end of PBUF (R41). -/
theorem readByte_appended_new (s : State) (bytes : Bytes) (k : Nat) :
    (s.appended bytes).readByte (s.pbuf.length + k) = bytes[k]? := by
  simp [State.readByte, List.getElem?_append_right]

/-- Every memory operation keeps PBUF's form: an outcome of `append` fits in PBUF_CAP. -/
theorem append_wf {bytes : Bytes} {s t : State} (h : append bytes s = .next t) : Memory.wf t.pbuf t.cap = true := by
  rcases append_cases bytes s with ⟨hf, e⟩ | ⟨_, e⟩ <;> rw [e] at h <;> cases h
  · simpa [Memory.wf] using hf
  · simp [Memory.wf]

theorem raiseFault_wf {c : FaultCode} {s t : State} (h : raiseFault c s = .next t) : Memory.wf t.pbuf t.cap = true := by
  cases h
  simp [Memory.wf]

theorem clearFault_wf (s : State) : Memory.wf (clearFault s).pbuf (clearFault s).cap = true := by simp [Memory.wf]

theorem resetBlock_wf (s : State) : Memory.wf (resetBlock s).pbuf (resetBlock s).cap = true := by simp [Memory.wf]

theorem reset_wf : Memory.wf State.reset.pbuf State.reset.cap = true := rfl

@[simp] theorem addrRecord_length (services : BitVec 64) (address : Bytes) (port : BitVec 16) :
    (addrRecord services address port).length = 10 + address.length := by
  simp [addrRecord]; omega

@[simp] theorem lengthPrefixed_length (s : Bytes) : (lengthPrefixed s).length = 1 + s.length := by
  simp [lengthPrefixed]; omega

@[simp] theorem userAgent_length (t : Bytes) : (userAgent t).length = t.length + 2 := by simp [userAgent]

theorem inventoryRecord_length {r : InvRecord} (h : r.WellFormed) : (inventoryRecord r).length = Config.recLen := by
  simp only [InvRecord.WellFormed] at h
  simp [inventoryRecord, h, Config.hashLen, Config.recLen]

theorem inventoryVector_length {rs : List InvRecord} (h : ∀ r ∈ rs, r.WellFormed) :
    (inventoryVector rs).length = 1 + Config.recLen * rs.length := by
  have e : (rs.flatMap inventoryRecord).length = Config.recLen * rs.length := by
    induction rs with
    | nil => rfl
    | cons r rs ih =>
      rw [List.flatMap_cons, List.length_append, inventoryRecord_length (h r (by simp)),
        ih fun q hq => h q (by simp [hq]), List.length_cons]
      ring
  simp [inventoryVector, e]; omega

theorem pad12_length {name : Bytes} (h : name.length ≤ 12) : (pad12 name).length = 12 := by
  simp [pad12, Config.nameLen]; omega

/-- |f| = 24 + |p| (R191 of 45_envelope.md). -/
theorem frameBytes_length {name : Bytes} (magic : BitVec 32) (h : name.length ≤ 12) (p : Bytes) :
    (frameBytes magic name p).length = 24 + p.length := by
  simp [frameBytes, pad12_length h]; omega

end Sys2Proof.Machine
end

