-- ==== Sys2Proof/Laws/Exec.lean ====
section
/-! SUPPORT. What a command can do, said once for all thirteen: every later proof splits on these cases and does not
unfold the meanings. -/

namespace Sys2Proof.Machine

/-- The five things a command can do. -/
inductive ExecCase (i : Instr) (s : State) : State → Prop where
  | faulted (c : FaultCode) : ExecCase i s (s.faulted c)
  | appended (bytes : Bytes) (fits : s.pbuf.length + bytes.length ≤ s.cap) : ExecCase i s (s.appended bytes)
  | framed (name : Bytes) (is : i = .frame name) (short : name.length ≤ 12) : ExecCase i s (s.framed name)
  | cleared (is : i = .clr) : ExecCase i s s.cleared
  | remagicked (m : BitVec 32) (is : i = .setmagic m) : ExecCase i s (s.remagicked m)

theorem append_execCase (i : Instr) (bytes : Bytes) (s : State) : ∃ t, append bytes s = .next t ∧ ExecCase i s t := by
  rcases append_cases bytes s with ⟨h, e⟩ | ⟨_, e⟩
  · exact ⟨_, e, .appended bytes h⟩
  · exact ⟨_, e, .faulted _⟩

/-- Every command goes on, and in one of the five ways. -/
theorem exec_execCase (i : Instr) (s : State) : ∃ t, exec i s = .next t ∧ ExecCase i s t := by
  cases i with
  | clr => exact ⟨_, rfl, .cleared rfl⟩
  | setmagic m => exact ⟨_, rfl, .remagicked m rfl⟩
  | wu16 v => exact append_execCase _ _ s
  | wu32 v => exact append_execCase _ _ s
  | wu64 v => exact append_execCase _ _ s
  | wi32 v => exact append_execCase _ _ s
  | wi64 v => exact append_execCase _ _ s
  | raw bytes => exact append_execCase _ _ s
  | addr services address port => exact append_execCase _ _ s
  | lpb bytes =>
    simp only [exec, execLpb]
    split
    · exact ⟨_, rfl, .faulted _⟩
    · exact append_execCase _ _ s
  | uag text =>
    simp only [exec, execUag]
    split
    · exact ⟨_, rfl, .faulted _⟩
    · exact append_execCase _ _ s
  | invv records =>
    simp only [exec, execInvv]
    split
    · exact ⟨_, rfl, .faulted _⟩
    · exact append_execCase _ _ s
  | frame name =>
    simp only [exec, execFrame]
    split
    · exact ⟨_, rfl, .faulted _⟩
    · rename_i h
      exact ⟨_, rfl, .framed name rfl (by simpa [Config.nameLen] using h)⟩

theorem exec_cases {i : Instr} {s t : State} (h : exec i s = .next t) : ExecCase i s t := by
  obtain ⟨u, e, c⟩ := exec_execCase i s
  rw [e] at h
  cases h
  exact c

end Sys2Proof.Machine
end

