-- ==== Sys2Proof/Laws/PerInstr.lean ====
section
/-! SUPPORT. Per-instruction laws about commands as syntax: the length a packet announces in its own first bytes is the
length of the packet the encoder writes (R65 of 30_encoding.md). -/

namespace Sys2Proof.Laws.PacketLength

open Machine

/-- `PktLen` of the encoded command is its length. -/
def Statement (i : Instr) : Prop := i.WellFormed → pktLen (encode i) = some (encode i).length

/-- The fixed-length formats. -/
theorem of_format {i : Instr} {n : Nat} (h : i.op.format.packetLength (encode i) = some n)
    (hl : (encode i).length = n) : pktLen (encode i) = some (encode i).length := by
  rw [hl, ← h]
  simp [pktLen, encode]

theorem clr : Statement .clr := fun _ => of_format rfl rfl

theorem setmagic (m : BitVec 32) : Statement (.setmagic m) := fun _ => of_format rfl (by simp [encode, encodeFields])

theorem wu16 (v : BitVec 16) : Statement (.wu16 v) := fun _ => of_format rfl (by simp [encode, encodeFields])

theorem wu32 (v : BitVec 32) : Statement (.wu32 v) := fun _ => of_format rfl (by simp [encode, encodeFields])

theorem wu64 (v : BitVec 64) : Statement (.wu64 v) := fun _ => of_format rfl (by simp [encode, encodeFields])

theorem wi32 (i : Int) : Statement (.wi32 i) := fun _ => of_format rfl (by simp [encode, encodeFields])

theorem wi64 (i : Int) : Statement (.wi64 i) := fun _ => of_format rfl (by simp [encode, encodeFields])

theorem addr (services : BitVec 64) (address : Bytes) (port : BitVec 16) : Statement (.addr services address port) :=
  fun h => of_format rfl (by
    have : address.length = 16 := by simpa [Instr.WellFormed, Instr.wellFormed] using h
    simp [encode, encodeFields, this])

/-- The value of a big-endian field right after the opcode. -/
theorem field_after_opcode {op : Byte} {k n j : Nat} {rest : Bytes} (h : n < 256 ^ k) (hj : 1 + k = j) :
    beDec (slice (op :: (be k n ++ rest)) 1 j) = n := by
  have e : slice ([op] ++ (be k n ++ rest)) 1 j = be k n := slice_append rfl (by rw [be_length, hj])
  exact (congrArg beDec e).trans (beDec_be h)

theorem fv32 {op : Byte} {n : Nat} {rest : Bytes} (h : n < 256 ^ 4) :
    Format.packetLength .FV32 (op :: (be 4 n ++ rest)) = some (5 + n) := by
  simp only [Format.packetLength]
  rw [if_neg (by simp), field_after_opcode h rfl]

theorem fv16 {op : Byte} {n : Nat} {rest : Bytes} (h : n < 256 ^ 2) :
    Format.packetLength .FV16 (op :: (be 2 n ++ rest)) = some (3 + n) := by
  simp only [Format.packetLength]
  rw [if_neg (by simp), field_after_opcode h rfl]

theorem fr16 {op : Byte} {n : Nat} {rest : Bytes} (h : n < 256 ^ 2) :
    Format.packetLength .FR16 (op :: (be 2 n ++ rest)) = some (3 + Config.recLen * n) := by
  simp only [Format.packetLength]
  rw [if_neg (by simp), field_after_opcode h rfl]

theorem fv8 {op : Byte} {n : Nat} {rest : Bytes} (h : n < 256 ^ 1) :
    Format.packetLength .FV8 (op :: (be 1 n ++ rest)) = some (2 + n) := by
  simp only [Format.packetLength]
  rw [if_neg (by simp), field_after_opcode h rfl]

theorem raw (s : Bytes) : Statement (.raw s) := fun h => by
  have hs : s.length < 256 ^ 4 := by simpa [Instr.WellFormed, Instr.wellFormed] using h
  exact of_format (fv32 hs) (by simp [encode, encodeFields]; omega)

theorem lpb (s : Bytes) : Statement (.lpb s) := fun h => by
  have hs : s.length < 256 ^ 2 := by simpa [Instr.WellFormed, Instr.wellFormed] using h
  exact of_format (fv16 hs) (by simp [encode, encodeFields]; omega)

theorem uag (t : Bytes) : Statement (.uag t) := fun h => by
  have ht : t.length < 256 ^ 2 := by simpa [Instr.WellFormed, Instr.wellFormed] using h
  exact of_format (fv16 ht) (by simp [encode, encodeFields]; omega)

theorem invv (records : List InvRecord) : Statement (.invv records) := fun h => by
  have ⟨hn, hr⟩ : records.length < 256 ^ 2 ∧ ∀ r ∈ records, r.WellFormed := by
    simpa [Instr.WellFormed, Instr.wellFormed] using h
  refine of_format (fr16 hn) ?_
  simp only [encode, encodeFields, List.length_cons, List.length_append, be_length, encodeRecords_length hr]
  omega

theorem frame (name : Bytes) : Statement (.frame name) := fun h => by
  have hn : name.length < 256 ^ 1 := by simpa [Instr.WellFormed, Instr.wellFormed] using h
  exact of_format (fv8 hn) (by simp [encode, encodeFields]; omega)

end Sys2Proof.Laws.PacketLength
end

