-- ==== Sys2Proof/Laws/Step.lean ====
section
/-! SUPPORT. What a step can do, said once. -/

namespace Sys2Proof.Machine

/-- An idle block keeps its state. -/
theorem step_of_idle {s : State} (h : s.inputs = []) : step s = .next s := by simp [step, nextEvent, h, idle]

/-- A step serves the next port event. -/
theorem step_of_event {s : State} {e : PortEvent} {rest : List PortEvent} (h : s.inputs = e :: rest) :
    step s = serve e (s.withInputs rest) := by
  simp [step, nextEvent, h, State.withInputs]

theorem commandBody_latched {s : State} {pkt : Bytes} (h : s.err ≠ none) (hp : pkt ≠ clearPacket) :
    commandBody pkt s = .next (s.respond .latched) := by
  cases e : s.err with
  | none => exact absurd e h
  | some c => simp [commandBody, e, hp]

theorem commandBody_latched_clear {s : State} (h : s.err ≠ none) : commandBody clearPacket s = .next s.cleared := by
  cases e : s.err with
  | none => exact absurd e h
  | some c =>
    simp only [commandBody, e, if_true]
    rfl

theorem commandBody_illegal {s : State} {pkt : Bytes} (h : s.err = none) (hd : decode pkt = .illegal) :
    commandBody pkt s = .next (s.faulted .illegal) := by
  simp [commandBody, h, hd]

theorem commandBody_malformed {s : State} {pkt : Bytes} (h : s.err = none) (hd : decode pkt = .malformed) :
    commandBody pkt s = .next (s.faulted .malformed) := by
  simp [commandBody, h, hd]

theorem commandBody_command {s : State} {pkt : Bytes} {i : Instr} (h : s.err = none) (hd : decode pkt = .command i) :
    commandBody pkt s = exec i s := by
  simp [commandBody, h, hd]

/-- What the body of a command cycle can do. -/
inductive BodyCase (pkt : Bytes) (s : State) : State → Prop where
  | latched (held : s.err ≠ none) (notClear : pkt ≠ clearPacket) : BodyCase pkt s (s.respond .latched)
  | released (held : s.err ≠ none) (isClear : pkt = clearPacket) : BodyCase pkt s s.cleared
  | illegal (free : s.err = none) (verdict : decode pkt = .illegal) : BodyCase pkt s (s.faulted .illegal)
  | malformed (free : s.err = none) (verdict : decode pkt = .malformed) : BodyCase pkt s (s.faulted .malformed)
  | executed (i : Instr) (t : State) (free : s.err = none) (verdict : decode pkt = .command i)
      (run : exec i s = .next t) (how : ExecCase i s t) : BodyCase pkt s t

theorem commandBody_bodyCase (pkt : Bytes) (s : State) : ∃ t, commandBody pkt s = .next t ∧ BodyCase pkt s t := by
  by_cases h : s.err = none
  · cases hd : decode pkt with
    | illegal => exact ⟨_, commandBody_illegal h hd, .illegal h hd⟩
    | malformed => exact ⟨_, commandBody_malformed h hd, .malformed h hd⟩
    | command i =>
      obtain ⟨t, e, c⟩ := exec_execCase i s
      exact ⟨t, by rw [commandBody_command h hd, e], .executed i t h hd e c⟩
  · by_cases hp : pkt = clearPacket
    · subst hp
      exact ⟨_, commandBody_latched_clear h, .released h rfl⟩
    · exact ⟨_, commandBody_latched h hp, .latched h hp⟩

/-- What a step can do: be idle, run one command cycle, reset, or let the transport take a frame. -/
inductive StepCase (s : State) : State → Prop where
  | idle (none : s.inputs = []) : StepCase s s
  | packet (pkt : Bytes) (rest : List PortEvent) (t : State) (next : s.inputs = .packet pkt :: rest)
      (how : BodyCase pkt (s.withInputs rest) t) : StepCase s t.advancePc
  | reset (rest : List PortEvent) (next : s.inputs = .resetInput :: rest) :
      StepCase s (resetBlock (s.withInputs rest))
  | take (rest : List PortEvent) (next : s.inputs = .takeFrame :: rest) :
      StepCase s (transportTake (s.withInputs rest))

theorem step_stepCase (s : State) : ∃ t, step s = .next t ∧ StepCase s t := by
  cases h : s.inputs with
  | nil => exact ⟨_, step_of_idle h, .idle h⟩
  | cons e rest =>
    rw [step_of_event h]
    cases e with
    | packet pkt =>
      obtain ⟨t, e, c⟩ := commandBody_bodyCase pkt (s.withInputs rest)
      exact ⟨_, by simp [serve, commandCycle, e, thenDo], .packet pkt rest t h c⟩
    | resetInput => exact ⟨_, rfl, .reset rest h⟩
    | takeFrame => exact ⟨_, rfl, .take rest h⟩

theorem step_cases {s t : State} (h : step s = .next t) : StepCase s t := by
  obtain ⟨u, e, c⟩ := step_stepCase s
  rw [e] at h
  cases h
  exact c

end Sys2Proof.Machine
end

