-- ==== Sys2Proof/Laws/Run.lean ====
section
/-! SUPPORT. Runs as folds: what the events still to come are does not matter to what one event does, so a run is one
event after another. -/

namespace Sys2Proof.Machine

/-- What happens next is not seen by a command (R9 of 00_scope.md). -/
theorem exec_withInputs (i : Instr) (s : State) (l : List PortEvent) :
    exec i (s.withInputs l) = thenDo (·.withInputs l) (exec i s) := by
  have happ : ∀ bytes, append bytes (s.withInputs l) = thenDo (·.withInputs l) (append bytes s) := by
    intro bytes
    rcases append_cases bytes s with ⟨h, e⟩ | ⟨h, e⟩
    · rw [e, append_of_fits (by simpa using h)]; rfl
    · rw [e, append_of_overflow (by simpa using h)]; rfl
  cases i <;>
    simp only [exec, execWu16, execWu32, execWu64, execWi32, execWi64, execRaw, execAddr, execLpb, execUag, execInvv,
      execFrame, happ] <;>
    first
    | rfl
    | (split
       · rfl
       · rfl)

theorem commandBody_withInputs (pkt : Bytes) (s : State) (l : List PortEvent) :
    commandBody pkt (s.withInputs l) = thenDo (·.withInputs l) (commandBody pkt s) := by
  simp only [commandBody, withInputs_err]
  split
  · split
    · exact exec_withInputs _ _ _
    · rfl
  · split
    · rfl
    · rfl
    · exact exec_withInputs _ _ _

theorem serve_withInputs (e : PortEvent) (s : State) (l : List PortEvent) :
    serve e (s.withInputs l) = thenDo (·.withInputs l) (serve e s) := by
  cases e with
  | packet pkt =>
    simp only [serve, commandCycle, commandBody_withInputs]
    obtain ⟨t, e, _⟩ := commandBody_bodyCase pkt s
    rw [e]
    rfl
  | resetInput => rfl
  | takeFrame =>
    simp only [serve, transportTake, thenDo, withInputs_txq]
    split <;> rfl

/-- The state after one event. -/
def serveState (e : PortEvent) (s : State) : State :=
  match serve e s with
  | .next t => t
  | .fault _ => s
  | .refused _ => s

/-- Every event is served: none is refused and none faults (R273 of 70_reset_and_hazards.md). -/
theorem serve_eq (e : PortEvent) (s : State) : serve e s = .next (serveState e s) := by
  cases e with
  | packet pkt =>
    obtain ⟨t, h, _⟩ := commandBody_bodyCase pkt s
    simp [serveState, serve, commandCycle, h, thenDo]
  | resetInput => rfl
  | takeFrame => rfl

theorem serveState_of_eq {e : PortEvent} {s t : State} (h : serve e s = .next t) : serveState e s = t := by
  simp [serveState, h]

theorem serveState_packet {pkt : Bytes} {s t : State} (h : commandBody pkt s = .next t) :
    serveState (.packet pkt) s = t.advancePc :=
  serveState_of_eq (by simp [serve, commandCycle, h, thenDo])

@[simp] theorem serveState_withInputs (e : PortEvent) (s : State) (l : List PortEvent) :
    serveState e (s.withInputs l) = (serveState e s).withInputs l := by
  apply serveState_of_eq
  rw [serve_withInputs, serve_eq]
  rfl

@[simp] theorem serveState_inputs (e : PortEvent) (s : State) : (serveState e s).inputs = s.inputs := by
  have h := serveState_withInputs e s s.inputs
  rw [show s.withInputs s.inputs = s from rfl] at h
  rw [h]
  rfl

/-- A run of one more step than k, from a step that goes on. -/
theorem coreRun_succ (M : Host.Core) (k : Nat) (s t : M.State) (h : M.step s = .next t) :
    M.run (k + 1) s = M.run k t := by
  simp [Host.Core.run, h]

/-- A run is one event after another, from the state it starts in, and leaves nothing pending (R264). -/
theorem run_eq (events : List PortEvent) (s : State) :
    run events s = .next ((events.foldl (fun s e => serveState e s) s).withInputs []) := by
  induction events generalizing s with
  | nil => rfl
  | cons e rest ih =>
    have h : Host.Core.run core rest.length (serveState e (s.withInputs rest)) = run rest (serveState e s) := by
      rw [serveState_withInputs]
      rfl
    have hs : step (s.withInputs (e :: rest)) = .next (serveState e (s.withInputs rest)) :=
      (step_of_event rfl).trans (serve_eq _ _)
    rw [List.foldl_cons, ← ih, ← h]
    exact coreRun_succ core rest.length _ _ hs

end Sys2Proof.Machine
end

