-- ==== Sys2Proof/Tests/Slice0.lean ====
section
/-! SUPPORT. Tests. Expected results are the spec's own worked examples and vectors (95_test_vectors.md and the rules'
examples), named in each comment; then the smoke tests of WellFormed; then a witness for the hypotheses of each statement. -/

namespace Sys2Proof.Tests

open Sys2Proof Machine

/-- A block with this capacity and this payload under construction, as after reset otherwise. -/
def block (cap : Nat) (pbuf : Bytes) : State := { State.resetOf ⟨Fin.ofNat _ cap⟩ with pbuf := pbuf }

/-- The same with a fault latched. -/
def latchedBlock (c : FaultCode) : State := { State.reset with err := some c }

/-- The state of an outcome that goes on. -/
def stateOf : Result → Option State
  | .next t => some t
  | .fault _ => none
  | .refused _ => none

/-- One step on a packet. -/
def onPacket (pkt : Bytes) (s : State) : Option State := stateOf (step (presentPacket pkt s))

/-- PBUF, ERR and the responses after one step on a packet. -/
def outcome (pkt : Bytes) (s : State) : Option (Bytes × Option FaultCode × List Response) :=
  (onPacket pkt s).map fun t => (t.pbuf, t.err, t.responses)

/-- The response byte of one step on a packet. -/
def responseByte (pkt : Bytes) (s : State) : Option (List Byte) :=
  (onPacket pkt s).map fun t => t.responses.map Response.code

/-! ### Decoding: every command from a packet written out from its encoding -/

/-- 46_control.md R210, R211 -/
theorem test_decode_control : decode [0x01#8] = .command .clr ∧
    decode [0x02#8, 0x07#8, 0x09#8, 0x11#8, 0x0b#8] = .command (.setmagic 0x0709110B#32) := by decide

/-- V-WU16-1, V-WU32-1, V-WU64-1 -/
theorem test_decode_unsigned : decode [0x10#8, 0x12#8, 0x34#8] = .command (.wu16 0x1234#16) ∧
    decode [0x11#8, 0xd9#8, 0xb4#8, 0xbe#8, 0xf9#8] = .command (.wu32 0xD9B4BEF9#32) ∧
    decode [0x12#8, 0x01#8, 0x02#8, 0x03#8, 0x04#8, 0x05#8, 0x06#8, 0x07#8, 0x08#8] =
      .command (.wu64 0x0102030405060708#64) := by decide

/-- V-WI32-2, V-WI64-2 -/
theorem test_decode_signed : decode [0x13#8, 0x80#8, 0#8, 0#8, 0#8] = .command (.wi32 (-2147483648)) ∧
    decode [0x14#8, 0xff#8, 0xff#8, 0xff#8, 0xff#8, 0xff#8, 0xff#8, 0xff#8, 0xfe#8] = .command (.wi64 (-2)) := by decide

/-- V-RAW-1, V-LPB-5, V-UAG-7, V-FRM-1 -/
theorem test_decode_counted :
    decode [0x18#8, 0#8, 0#8, 0#8, 3#8, 0x61#8, 0x62#8, 0x63#8] = .command (.raw [0x61#8, 0x62#8, 0x63#8]) ∧
    decode [0x30#8, 0#8, 3#8, 0#8, 0xff#8, 0x2f#8] = .command (.lpb [0#8, 0xff#8, 0x2f#8]) ∧
    decode [0x31#8, 0#8, 3#8, 0x61#8, 0x2f#8, 0x62#8] = .command (.uag [0x61#8, 0x2f#8, 0x62#8]) ∧
    decode [0x40#8, 6#8, 0x76#8, 0x65#8, 0x72#8, 0x61#8, 0x63#8, 0x6b#8] = .command (.frame nameVerack) := by decide

/-- V-ADDR-1's packet (R120). -/
def addrPacket : Bytes :=
  [0x20#8, 0#8, 0#8, 0#8, 0#8, 0#8, 0#8, 0#8, 1#8, 0#8, 0#8, 0#8, 0#8, 0#8, 0#8, 0#8, 0#8, 0#8, 0#8, 0xff#8, 0xff#8,
    0x7f#8, 0#8, 0#8, 1#8, 0x20#8, 0x8d#8]

/-- V-ADDR-1, and V-INVV-6 -/
theorem test_decode_records :
    decode addrPacket = .command (.addr 1#64 (ipv4Mapped 0x7f#8 0#8 0#8 1#8) 8333#16) ∧
    decode ([0x32#8, 0#8, 1#8, 0xff#8, 0xff#8, 0xff#8, 0xff#8] ++ List.replicate 32 0xab#8) =
      .command (.invv [⟨0xFFFFFFFF#32, List.replicate 32 0xab#8⟩]) := by decide

/-- V-FLT-1 to V-FLT-7: illegal packets -/
theorem test_decode_illegal :
    ([[], [0x00#8], [0xff#8], [0x15#8, 0#8], [0x03#8], [0x41#8, 0#8], [0x19#8, 0#8, 0#8, 0#8, 0#8]] : List Bytes).map decode =
      List.replicate 7 .illegal := by decide

/-- V-FLT-8 to V-FLT-12, V-FLT-14 to V-FLT-16, V-FLT-18: malformed packets -/
theorem test_decode_malformed :
    ([[0x11#8, 0#8, 0#8, 0#8], [0x10#8, 0#8, 0#8, 0#8], [0x30#8, 0#8, 4#8, 0x61#8, 0x62#8, 0x63#8], [0x30#8, 0#8],
      [0x18#8, 0#8, 0#8], [0x40#8, 3#8, 0x61#8, 0x62#8], [0x01#8, 0#8], [0x40#8], [0x02#8, 1#8]] : List Bytes).map decode =
      List.replicate 9 .malformed := by decide

/-- V-DEC-2 and V-DEC-3 -/
theorem test_cut :
    cut [0x13#8, 0#8, 1#8, 0x11#8, 0x7f#8, 0x31#8, 0#8, 0#8, 0x40#8, 6#8, 0x76#8, 0x65#8, 0x72#8, 0x61#8, 0x63#8, 0x6b#8, 1#8] =
      some [[0x13#8, 0#8, 1#8, 0x11#8, 0x7f#8], [0x31#8, 0#8, 0#8],
        [0x40#8, 6#8, 0x76#8, 0x65#8, 0x72#8, 0x61#8, 0x63#8, 0x6b#8], [1#8]] ∧
    cut [0x10#8, 0x12#8, 0x34#8, 0x00#8] = none := by decide

/-- Every row of the opcode table, its operand bytes zero. -/
theorem test_table_words :
    ([0x01, 0x02, 0x10, 0x11, 0x12, 0x13, 0x14, 0x18, 0x20, 0x30, 0x31, 0x32, 0x40] : List Nat).map (decodeTableWord 8) =
      [some .clr, some (.setmagic 0#32), some (.wu16 0#16), some (.wu32 0#32), some (.wu64 0#64), some (.wi32 0),
        some (.wi64 0), some (.raw []), some (.addr 0#64 (List.replicate 16 0#8) 0#16), some (.lpb []), some (.uag []),
        some (.invv []), some (.frame [])] := by decide

/-- Every row of the opcode table runs as the first instruction after reset, and responds OK. -/
theorem test_table_words_run :
    ([0x01, 0x02, 0x10, 0x11, 0x12, 0x13, 0x14, 0x18, 0x20, 0x30, 0x31, 0x32, 0x40] : List Nat).map
      (fun w => (stateOf (step (State.reset.withFetchWord 8 w))).map fun t => (t.responses, t.pc)) =
      List.replicate 13 (some ([.ok], 1)) := by decide

/-! ### One step, from the spec's vectors -/

/-- V-CTL-1, its second packet: CLR abandons a half-built payload -/
theorem test_clr : outcome [0x01#8] (block 9181 [1#8, 0#8, 0#8, 0#8]) = some ([], none, [.ok]) := by decide

/-- R210: CLR leaves the latched state -/
theorem test_clr_latched : outcome [0x01#8] (latchedBlock .illegal) = some ([], none, [.ok]) := by decide

/-- V-CTL-4, its first packet -/
theorem test_setmagic : (onPacket [0x02#8, 0x07#8, 0x09#8, 0x11#8, 0x0b#8] State.reset).map (·.magic) = some 0x0709110B#32 := by
  decide

/-- V-CTL-6, its third packet: a latched SETMAGIC does nothing -/
theorem test_setmagic_latched :
    (onPacket [0x02#8, 0#8, 0#8, 0#8, 1#8] (latchedBlock .illegal)).map (fun t => (t.magic, t.responses)) =
      some (0xD9B4BEF9#32, [.latched]) := by decide

/-- V-WU16-1 -/
theorem test_wu16 : outcome [0x10#8, 0x12#8, 0x34#8] State.reset = some ([0x34#8, 0x12#8], none, [.ok]) := by decide

/-- V-FLT-30: the fault discards what was there -/
theorem test_wu16_overflow :
    outcome [0x10#8, 0#8, 2#8] (block 4 [1#8, 0#8, 0#8, 0#8]) = some ([], some .overflow, [.fault .overflow]) := by decide

/-- V-WU32-1 -/
theorem test_wu32 :
    outcome [0x11#8, 0xd9#8, 0xb4#8, 0xbe#8, 0xf9#8] State.reset = some ([0xf9#8, 0xbe#8, 0xb4#8, 0xd9#8], none, [.ok]) := by
  decide

/-- V-FLT-31: exactly full is not overflow -/
theorem test_wu32_exactly_full :
    outcome [0x11#8, 0#8, 0#8, 0#8, 1#8] (block 4 []) = some ([1#8, 0#8, 0#8, 0#8], none, [.ok]) := by decide

/-- V-WU64-1 -/
theorem test_wu64 :
    outcome [0x12#8, 1#8, 2#8, 3#8, 4#8, 5#8, 6#8, 7#8, 8#8] State.reset =
      some ([8#8, 7#8, 6#8, 5#8, 4#8, 3#8, 2#8, 1#8], none, [.ok]) := by decide

/-- V-WI32-4: wi32 70015 -/
theorem test_wi32 :
    stateOf (exec (.wi32 70015) State.reset) |>.map (·.pbuf) |> (· = some [0x7f#8, 0x11#8, 0x01#8, 0x00#8]) := by decide

/-- V-WI32-2, the minimum -/
theorem test_wi32_min :
    outcome [0x13#8, 0x80#8, 0#8, 0#8, 0#8] State.reset = some ([0#8, 0#8, 0#8, 0x80#8], none, [.ok]) := by decide

/-- V-WI64-1: wi64 1700000000 -/
theorem test_wi64 :
    outcome [0x14#8, 0#8, 0#8, 0#8, 0#8, 0x65#8, 0x53#8, 0xf1#8, 0#8] State.reset =
      some ([0#8, 0xf1#8, 0x53#8, 0x65#8, 0#8, 0#8, 0#8, 0#8], none, [.ok]) := by decide

/-- V-WI64-2: wi64 -2 -/
theorem test_wi64_negative :
    stateOf (exec (.wi64 (-2)) State.reset) |>.map (·.pbuf) |> (· = some (0xfe#8 :: List.replicate 7 0xff#8)) := by decide

/-- V-RAW-1 -/
theorem test_raw :
    outcome [0x18#8, 0#8, 0#8, 0#8, 3#8, 0x61#8, 0x62#8, 0x63#8] (block 4 [0x7a#8]) =
      some ([0x7a#8, 0x61#8, 0x62#8, 0x63#8], none, [.ok]) := by decide

/-- V-FLT-32: with capacity 0 the empty RAW passes and one byte overflows -/
theorem test_raw_no_room :
    responseByte [0x18#8, 0#8, 0#8, 0#8, 0#8] (block 0 []) = some [0x00#8] ∧
    responseByte [0x18#8, 0#8, 0#8, 0#8, 1#8, 0#8] (block 0 []) = some [0x05#8] := by decide

/-- V-ADDR-1: services reversed, port not -/
theorem test_addr :
    (onPacket addrPacket State.reset).map (·.pbuf) =
      some ([1#8, 0#8, 0#8, 0#8, 0#8, 0#8, 0#8, 0#8, 0#8, 0#8, 0#8, 0#8, 0#8, 0#8, 0#8, 0#8, 0#8, 0#8, 0xff#8, 0xff#8,
        0x7f#8, 0#8, 0#8, 1#8, 0x20#8, 0x8d#8]) := by decide

/-- V-FLT-33: no part of the 26 bytes is written -/
theorem test_addr_overflow : outcome addrPacket (block 25 []) = some ([], some .overflow, [.fault .overflow]) := by decide

/-- V-LPB-2 -/
theorem test_lpb : outcome [0x30#8, 0#8, 3#8, 0x61#8, 0x62#8, 0x63#8] State.reset =
    some ([3#8, 0x61#8, 0x62#8, 0x63#8], none, [.ok]) := by decide

/-- V-FLT-22: the field length before the room -/
theorem test_lpb_too_long :
    outcome ([0x30#8, 0x01#8, 0x2c#8] ++ List.replicate 300 0#8) (block 10 []) =
      some ([], some .fieldLen, [.fault .fieldLen]) := by decide +kernel

/-- V-UAG-3: 253 bytes pass with length byte ff -/
theorem test_uag_longest :
    (onPacket ([0x31#8, 0#8, 0xfd#8] ++ List.replicate 253 0x61#8) State.reset).map (·.pbuf) =
      some ([0xff#8, 0x2f#8] ++ List.replicate 253 0x61#8 ++ [0x2f#8]) := by decide +kernel

/-- V-UAG-8: 254 bytes fault, and the bytes before are discarded -/
theorem test_uag_too_long :
    outcome ([0x31#8, 0#8, 0xfe#8] ++ List.replicate 254 0x61#8) (block 9181 [0x34#8, 0x12#8]) =
      some ([], some .fieldLen, [.fault .fieldLen]) := by decide +kernel

/-- V-INVV-3: two records, tags reversed, hashes not -/
theorem test_invv :
    (onPacket ([0x32#8, 0#8, 2#8, 0#8, 0#8, 0#8, 2#8] ++ List.replicate 32 0x11#8 ++ [0x40#8, 0#8, 0#8, 1#8] ++
      List.replicate 32 0x22#8) State.reset).map (·.pbuf) =
      some ([2#8, 2#8, 0#8, 0#8, 0#8] ++ List.replicate 32 0x11#8 ++ [1#8, 0#8, 0#8, 0x40#8] ++
        List.replicate 32 0x22#8) := by decide +kernel

/-- V-FLT-20, V-FLT-21: malformed before the count, the count before the room -/
theorem test_invv_priority :
    responseByte ([0x32#8, 1#8, 0#8] ++ List.replicate (36 * 255) 0#8) (block 10 []) = some [0x04#8] ∧
    responseByte ([0x32#8, 1#8, 0#8] ++ List.replicate (36 * 256) 0#8) (block 10 []) = some [0x02#8] := by
  decide +kernel

/-- S1, BNP's known vector -/
theorem test_frame_verack :
    (onPacket [0x40#8, 6#8, 0x76#8, 0x65#8, 0x72#8, 0x61#8, 0x63#8, 0x6b#8] State.reset).map (·.txq) =
      some [[0xf9#8, 0xbe#8, 0xb4#8, 0xd9#8, 0x76#8, 0x65#8, 0x72#8, 0x61#8, 0x63#8, 0x6b#8, 0#8, 0#8, 0#8, 0#8, 0#8, 0#8,
        0#8, 0#8, 0#8, 0#8, 0x5d#8, 0xf6#8, 0xe0#8, 0xe2#8]] := by decide +kernel

/-- V-FRM-9: a 13-byte name faults and the payload is discarded -/
theorem test_frame_long_name :
    (onPacket ([0x40#8, 13#8] ++ List.replicate 13 0x61#8) (block 9181 [1#8, 0#8, 0#8, 0#8])).map
      (fun t => (t.pbuf, t.txq, t.err)) = some ([], [], some .cmdName) := by decide

/-! ### The hash and whole messages -/

/-- V-SHA-4, V-SHA-5: 55 bytes pad to one block, 56 to two -/
theorem test_checksum_block_edge :
    (hash256 (hash256 (List.replicate 55 0x61#8))).take 4 = [0x56#8, 0x6d#8, 0xbb#8, 0x7f#8] ∧
    (hash256 (hash256 (List.replicate 56 0x61#8))).take 4 = [0x12#8, 0x2c#8, 0xf0#8, 0xfa#8] := by decide +kernel

/-- P2's operands. -/
def handshakeP2 : Handshake :=
  { protocolVersion := 70015, services := 1#64, timestamp := 1700000000
    addressReceiving := ⟨1#64, ipv4Mapped 0x0a#8 0#8 0#8 1#8, 8333#16⟩
    addressFrom := ⟨1#64, ipv4Mapped 0x7f#8 0#8 0#8 1#8, 8333#16⟩
    nonce := 0x1122334455667788#64
    userAgent := [0x53#8, 0x61#8, 0x74#8, 0x6f#8, 0x73#8, 0x68#8, 0x69#8, 0x3a#8, 0x30#8, 0x2e#8, 0x37#8, 0x2e#8, 0x32#8]
    startHeight := 0 }

/-- P2: the header and the first payload bytes of the handshake frame, and its length -/
theorem test_handshake_frame :
    ((encodeHandshake handshakeP2).bind (frameReference Config.resetMagic nameVersion)).map
      (fun f => (f.length, f.take 28)) =
      some (124, [0xf9#8, 0xbe#8, 0xb4#8, 0xd9#8, 0x76#8, 0x65#8, 0x72#8, 0x73#8, 0x69#8, 0x6f#8, 0x6e#8, 0#8, 0#8, 0#8,
        0#8, 0#8, 0x64#8, 0#8, 0#8, 0#8, 0xce#8, 0x5a#8, 0x96#8, 0x0f#8, 0x7f#8, 0x11#8, 1#8, 0#8]) := by decide +kernel

/-- P2's first, sixth and last lines, in the assembler's text -/
theorem test_assembler :
    Asm.program "wi32  70015   ; protocolVersion\nwu64 0x1122334455667788\nframe \"version\"".toList =
      some [.wi32 70015, .wu64 0x1122334455667788#64, .frame nameVersion] ∧
    Asm.program "addr 1, hex:00000000000000000000ffff7f000001, 8333".toList =
      some [.addr 1#64 (ipv4Mapped 0x7f#8 0#8 0#8 1#8) 8333#16] ∧
    Asm.program "raw hex:0".toList = none ∧ Asm.program "wi32 2147483648".toList = none := by decide +kernel

/-- P2 as one pseudo-instruction, over four lines as the spec writes it -/
theorem test_assembler_msg_version :
    Asm.program ("msg.version 70015, 1, 1700000000,\n  (1, hex:00000000000000000000ffff0a000001, 8333),\n" ++
      "  (1, hex:00000000000000000000ffff7f000001, 8333),\n  0x1122334455667788, \"Satoshi:0.7.2\", 0\n; ends").toList =
      some (Pseudo.msgVersion handshakeP2).expand := by decide +kernel

/-! ### WellFormed: an ill-formed term for each check -/

theorem smoke_wi32_above : (Instr.wi32 2147483648).wellFormed = false := by decide
theorem smoke_wi32_below : (Instr.wi32 (-2147483649)).wellFormed = false := by decide
theorem smoke_wi64_above : (Instr.wi64 9223372036854775808).wellFormed = false := by decide
theorem smoke_wi64_below : (Instr.wi64 (-9223372036854775809)).wellFormed = false := by decide
theorem smoke_raw : (Instr.raw (List.replicate (2 ^ 32) 0#8)).wellFormed = false := by
  simp only [Instr.wellFormed, List.length_replicate, Nat.lt_irrefl, decide_false]
theorem smoke_addr : (Instr.addr 0#64 (List.replicate 15 0#8) 0#16).wellFormed = false := by decide
theorem smoke_lpb : (Instr.lpb (List.replicate (2 ^ 16) 0#8)).wellFormed = false := by
  simp only [Instr.wellFormed, List.length_replicate, Nat.lt_irrefl, decide_false]
theorem smoke_uag : (Instr.uag (List.replicate (2 ^ 16) 0#8)).wellFormed = false := by
  simp only [Instr.wellFormed, List.length_replicate, Nat.lt_irrefl, decide_false]
theorem smoke_invv_count : (Instr.invv (List.replicate (2 ^ 16) ⟨0#32, List.replicate 32 0#8⟩)).wellFormed = false := by
  simp only [Instr.wellFormed, List.length_replicate, Nat.lt_irrefl, decide_false, Bool.false_and]
theorem smoke_invv_hash : (Instr.invv [⟨0#32, List.replicate 31 0#8⟩]).wellFormed = false := by decide
theorem smoke_frame : (Instr.frame (List.replicate 256 0#8)).wellFormed = false := by decide +kernel

/-! ### Witnesses: concrete states and operands that meet the hypotheses of each statement -/

/-- DecodeOfEncodeIsIdentity, CutOfEncodedCommands, AssembledCommandsFitPackets -/
theorem witness_wellFormed :
    (∀ i ∈ [Instr.wi32 (-2147483648), .frame (List.replicate 255 0#8), .clr], i.WellFormed) ∧
    Asm.program "wi32 -2147483648".toList = some [.wi32 (-2147483648)] := by decide +kernel

/-- EncodeOfDecodeIsIdentity, and the clauses of DecodeVerdicts -/
theorem witness_decode :
    decode [0x40#8, 0#8] = .command (.frame []) ∧ 0x40#8 ∈ assignedOpcodes ∧
    pktLen [0x40#8, 0#8] = some [0x40#8, 0#8].length ∧
    pktLen [0x40#8, 1#8] ≠ some [0x40#8, 1#8].length ∧ 0x41#8 ∉ assignedOpcodes := by decide

/-- PacketLengthsAndCutting: its clauses on cutting, at the lengths where they meet -/
theorem witness_cutting :
    pktLen [0x00#8] = none ∧
    pktLen [0x10#8, 0#8] = some 3 ∧ [0x10#8, 0#8].length < 3 ∧
    pktLen [0x10#8, 0#8, 0#8] = some 3 ∧ 3 ≤ [0x10#8, 0#8, 0#8].length ∧ 0x00#8 ∉ assignedOpcodes := by decide

/-- StepRunsDecodedCommand, UndecodedPacketsFault, ResponseFollowsPriority, OneResponsePerPacket -/
theorem witness_packet_step :
    State.reset.err = none ∧ decode [0x01#8] = .command .clr ∧ decode [] = .illegal ∧ decode [0x10#8] = .malformed ∧
    (presentPacket [0x01#8] State.reset).inputs = .packet [0x01#8] :: [] := by decide

/-- FaultEntryIsPrecise -/
theorem witness_fault_entry :
    (presentPacket [] State.reset).err = none ∧
    (onPacket [] State.reset).map (·.err) = some (some .illegal) := by decide

/-- LatchedBlockRefuses, LatchIsLeftByClrOrReset -/
theorem witness_latched :
    (latchedBlock .overflow).err = some .overflow ∧
    (onPacket [0xff#8] (latchedBlock .overflow)).map (·.err) = some (some .overflow) ∧
    (onPacket [0x01#8] (latchedBlock .overflow)).map (·.err) = some none ∧
    (stateOf (step ((latchedBlock .overflow).withInputs [.takeFrame]))).map (·.err) = some (some .overflow) ∧
    (stateOf (step ((latchedBlock .overflow).withInputs [.resetInput]))).map (·.err) = some none := by decide

/-- PcCountsPackets, ParametersNeverChange: a step of each kind of event -/
theorem witness_events :
    (onPacket [] State.reset).map (·.pc) = some 1 ∧
    (stateOf (step (({ State.reset with pc := 5 }).withInputs [.resetInput]))).map (·.pc) = some 0 ∧
    (stateOf (step (({ State.reset with pc := 5 }).withInputs [.takeFrame]))).map (·.pc) = some 5 ∧
    (stateOf (step { State.reset with pc := 5 })).map (·.pc) = some 5 ∧
    1 ≤ ([[0x01#8], [0xff#8]] : List Bytes).length := by decide

/-- InvariantKeptByEveryStep: a state that meets the invariant, with a payload, a frame and a response behind it -/
theorem witness_inv : Inv { block 4 [1#8] with
    pc := 1, responses := [.ok]
    txq := [[0xf9#8, 0xbe#8, 0xb4#8, 0xd9#8, 0#8, 0#8, 0#8, 0#8, 0#8, 0#8, 0#8, 0#8, 0#8, 0#8, 0#8, 0#8, 0#8, 0#8, 0#8, 0#8,
      0x5d#8, 0xf6#8, 0xe0#8, 0xe2#8]] } where
  pbuf_fits := by decide
  latched_empty := by decide
  err_legal := by decide
  frames_consistent := by
    simp only [State.emitted, block, State.resetOf, List.nil_append, List.forall_mem_singleton, FrameConsistent]
    decide +kernel
  one_response_each := by decide

/-- EmittedFramesStand: a step that emits -/
theorem witness_emit :
    (presentPacket [0x40#8, 0#8] State.reset).inputs.head? ≠ some .resetInput ∧
    (onPacket [0x40#8, 0#8] State.reset).map (·.emitted.length) = some 1 := by decide

/-- ResetValues, TransportTakesHeadFrame (both clauses), IdleBlockKeepsState -/
theorem witness_ports :
    (State.reset.withInputs [.resetInput]).inputs = .resetInput :: [] ∧
    ({ State.reset with txq := [[1#8]], inputs := [.takeFrame] } : State).txq = [1#8] :: [] ∧
    (State.reset.withInputs [.takeFrame]).txq = [] ∧ State.reset.inputs = [] := by decide

/-- PlenIsPayloadLength, AppendIsAllOrNothingAtTheEnd: at the edges of PBUF_CAP -/
theorem witness_append :
    (block 2 [1#8, 2#8]).pbuf.length ≤ (block 2 [1#8, 2#8]).cap ∧
    (block 3 [1#8]).pbuf.length + [2#8, 3#8].length ≤ (block 3 [1#8]).cap ∧
    (block 2 [1#8]).cap < (block 2 [1#8]).pbuf.length + [2#8, 3#8].length ∧
    (Instr.lpb (List.replicate 255 0#8)).WellFormed ∧
    (Instr.lpb (List.replicate 255 0#8)).appendedLength = some 256 ∧
    (Instr.lpb (List.replicate 255 0#8)).rangeFault = none ∧
    (onPacket [0x10#8, 1#8, 2#8] (block 3 [1#8])).map (·.pbuf) = some [1#8, 2#8, 1#8] := by decide +kernel

/-- AppendingCommandsFrame: both outcomes -/
theorem witness_appending_frame :
    (Instr.wu16 7#16).WellFormed ∧ (Instr.wu16 7#16).appendedLength = some 2 ∧
    (stateOf (exec (.wu16 7#16) (block 2 []))).map (·.err) = some none ∧
    (stateOf (exec (.wu16 7#16) (block 1 []))).map (·.err) = some (some .overflow) := by decide

/-- FramingAndControlFrame: FRAME with and without a fault, CLR, SETMAGIC -/
theorem witness_framing :
    (stateOf (exec (.frame (List.replicate 12 0#8)) (block 2 []))).map (·.txq.length) = some 1 ∧
    (stateOf (exec (.frame (List.replicate 13 0#8)) (block 2 []))).map (·.txq.length) = some 0 ∧
    (stateOf (exec .clr (latchedBlock .illegal))).map (·.err) = some none ∧
    (stateOf (exec (.setmagic 1#32) (block 2 []))).map (·.magic) = some 1#32 := by decide

/-- Wu16Rule, Wu32Rule, Wu64Rule, Wi32Rule, Wi64Rule: exactly full, one byte short, and the ends of the signed ranges -/
theorem witness_writers :
    (block 2 []).err = none ∧ (block 2 []).pbuf.length + 2 ≤ (block 2 []).cap ∧
    (block 1 []).cap < (block 1 []).pbuf.length + 2 ∧
    (block 4 []).pbuf.length + 4 ≤ (block 4 []).cap ∧ (block 3 []).cap < (block 3 []).pbuf.length + 4 ∧
    (block 8 []).pbuf.length + 8 ≤ (block 8 []).cap ∧ (block 7 []).cap < (block 7 []).pbuf.length + 8 ∧
    InSigned 32 (-2147483648) ∧ InSigned 32 2147483647 ∧
    InSigned 64 (-9223372036854775808) ∧ InSigned 64 9223372036854775807 := by decide

/-- RawRule, AddrRule -/
theorem witness_raw_addr :
    [1#8].length < 2 ^ 32 ∧ (block 1 []).pbuf.length + [1#8].length ≤ (block 1 []).cap ∧
    (block 0 []).cap < (block 0 []).pbuf.length + [1#8].length ∧
    ([0#8, 0#8, 0#8, 1#8] : Bytes).length = 4 ∧ ([] : Bytes).length ≠ beDec [0#8, 0#8, 0#8, 1#8] ∧
    (List.replicate 16 0#8).length = 16 ∧ (block 26 []).pbuf.length + 26 ≤ (block 26 []).cap ∧
    (block 25 []).cap < (block 25 []).pbuf.length + 26 ∧ (List.replicate 25 0#8).length ≠ 26 := by decide

/-- LpbRule, UagRule: the longest operand that passes, exactly full and one byte short, and the shortest that faults -/
theorem witness_varlen :
    (List.replicate 255 0#8).length ≤ 255 ∧ (block 256 []).pbuf.length + 1 + (List.replicate 255 0#8).length ≤ (block 256 []).cap ∧
    (block 255 []).cap < (block 255 []).pbuf.length + 1 + (List.replicate 255 0#8).length ∧
    255 < (List.replicate 256 0#8).length ∧ (List.replicate 256 0#8).length < 2 ^ 16 ∧
    (List.replicate 253 0#8).length ≤ 253 ∧ (block 256 []).pbuf.length + (List.replicate 253 0#8).length + 3 ≤ (block 256 []).cap ∧
    (block 255 []).cap < (block 255 []).pbuf.length + (List.replicate 253 0#8).length + 3 ∧
    253 < (List.replicate 254 0#8).length ∧
    ([0#8, 1#8] : Bytes).length = 2 ∧ ([] : Bytes).length ≠ beDec [0#8, 1#8] := by decide +kernel

/-- A record. -/
def record : InvRecord := ⟨1#32, List.replicate 32 0x11#8⟩

/-- InvvRule, InventoryRecordLayout: the counts at the edge, exactly full and one byte short -/
theorem witness_invv :
    (∀ r ∈ List.replicate 255 record, r.hash.length = 32) ∧ (List.replicate 255 record).length ≤ 255 ∧
    255 < (List.replicate 256 record).length ∧ (List.replicate 256 record).length < 2 ^ 16 ∧
    (block 37 []).pbuf.length + 1 + 36 * [record].length ≤ (block 37 []).cap ∧
    (block 36 []).cap < (block 36 []).pbuf.length + 1 + 36 * [record].length ∧
    (stateOf (exec (.invv [record]) (block 37 []))).isSome ∧ [record][0]? = some record ∧
    ([0#8, 1#8] : Bytes).length = 2 ∧ ([] : Bytes).length ≠ 36 * beDec [0#8, 1#8] := by decide +kernel

/-- ByteOrderRoundTrips: the largest value of a width -/
theorem witness_byte_order : 0xFFFF < 256 ^ 2 ∧ InSigned 32 (-1) ∧ InSigned 64 (-1) := by decide

/-- PaddingIsLeast: a number of zeros that makes the padded message a multiple of 64 -/
theorem witness_padding : 64 ∣ ([] : Bytes).length + 1 + 55 + 8 := by decide

/-- FrameRule, FrameLayout, EmittedFrameIsConsistent, SecondFrameHasEmptyPayload: names at the limit -/
theorem witness_frame :
    (List.replicate 12 0x61#8).length ≤ 12 ∧ 12 < (List.replicate 13 0x61#8).length ∧
    (List.replicate 13 0x61#8).length < 2 ^ 8 ∧ (block 2 [1#8, 2#8]).pbuf.length ≤ (block 2 [1#8, 2#8]).cap ∧
    (block 2 [1#8]).err = none ∧ ([] : Bytes).length ≠ (1#8).toNat := by decide

/-- ClrRule, SetmagicRule -/
theorem witness_control :
    (presentPacket [0x01#8, 0x00#8] (latchedBlock .cmdName)).inputs = .packet [0x01#8, 0x00#8] :: [] ∧
    (presentPacket [0x01#8, 0x00#8] (latchedBlock .cmdName)).err ≠ none ∧ [0x01#8, 0x00#8] ≠ [0x01#8] ∧
    (presentPacket [0x01#8] (block 1 [1#8])).inputs = .packet [0x01#8] :: [] ∧ (block 0 []).err = none := by decide

/-- EncoderExpansionBuildsPayload, MessageExpansionEmitsFrame, VersionPayloadLayout: P2's handshake, which fits exactly -/
theorem witness_expansion :
    (Pseudo.encVersion handshakeP2).wellFormed = true ∧ (Pseudo.encVersion handshakeP2).messageName = none ∧
    (Pseudo.msgVersion handshakeP2).wellFormed = true ∧ (Pseudo.msgVersion handshakeP2).messageName = some nameVersion ∧
    (Pseudo.encVersion handshakeP2).payload.map List.length = some 100 ∧
    (Pseudo.msgVersion handshakeP2).payload.isSome ∧
    (block 100 []).pbuf = [] ∧ (block 100 []).err = none ∧ (block 100 []).cap = 100 := by decide +kernel

/-- FailingExpansionEmitsNothing: a text of 254 bytes -/
theorem witness_failing_expansion :
    (Pseudo.msgVersion { handshakeP2 with userAgent := List.replicate 254 0x61#8 }).wellFormed = true ∧
    (Pseudo.msgVersion { handshakeP2 with userAgent := List.replicate 254 0x61#8 }).payload = none := by decide +kernel

end Sys2Proof.Tests
end

section
/-! SUPPORT. The packet counter `pc` (R21 of 10_state.md): no command reads or sets it, and it indexes the packets of a
program. -/

namespace Sys2Proof.Machine

/-- The state with this value in `pc`. -/
def State.withPc (s : State) (n : Nat) : State := { s with pc := n }

/-- No command changes pc: its only assignments are in the command cycle and in reset (R8 of 00_scope.md). -/
theorem ExecCase.pc_eq {i : Instr} {s t : State} (h : ExecCase i s t) : t.pc = s.pc := by
  cases h <;> rfl

theorem BodyCase.pc_eq {pkt : Bytes} {s t : State} (h : BodyCase pkt s t) : t.pc = s.pc := by
  cases h with
  | executed i t _ _ _ how => exact how.pc_eq
  | latched _ _ => rfl
  | released _ _ => rfl
  | illegal _ _ => rfl
  | malformed _ _ => rfl

theorem append_withPc (bytes : Bytes) (s : State) (n : Nat) :
    append bytes (s.withPc n) = thenDo (·.withPc n) (append bytes s) := by
  rcases append_cases bytes s with ⟨h, e⟩ | ⟨h, e⟩
  · rw [e, append_of_fits (s := s.withPc n) h]; rfl
  · rw [e, append_of_overflow (s := s.withPc n) h]; rfl

/-- A command whose range check comes before its append reads pc in neither (R150 of 43_varlen_fields.md). -/
theorem rangeCheckedAppend_withPc (p : Prop) [Decidable p] (c : FaultCode) (bytes : Bytes) (s : State) (n : Nat) :
    (if p then raiseFault c (s.withPc n) else append bytes (s.withPc n)) =
      thenDo (·.withPc n) (if p then raiseFault c s else append bytes s) := by
  split
  · rfl
  · exact append_withPc bytes s n

/-- No command reads pc: started with another value there, it does the same to everything else. -/
theorem exec_withPc (i : Instr) (s : State) (n : Nat) :
    exec i (s.withPc n) = thenDo (·.withPc n) (exec i s) := by
  cases i with
  | clr => rfl
  | setmagic m => rfl
  | wu16 v => exact append_withPc _ s n
  | wu32 v => exact append_withPc _ s n
  | wu64 v => exact append_withPc _ s n
  | wi32 v => exact append_withPc _ s n
  | wi64 v => exact append_withPc _ s n
  | raw bytes => exact append_withPc _ s n
  | addr services address port => exact append_withPc _ s n
  | lpb bytes => exact rangeCheckedAppend_withPc _ _ _ s n
  | uag text => exact rangeCheckedAppend_withPc _ _ _ s n
  | invv records => exact rangeCheckedAppend_withPc _ _ _ s n
  | frame name =>
    simp only [exec, execFrame]
    split <;> rfl

/-- What a step does to pc, by the event it serves. -/
theorem step_pc {s t : State} (h : step s = .next t) :
    (∀ pkt, s.inputs.head? = some (.packet pkt) → t.pc = s.pc + 1) ∧
    (s.inputs.head? = some .resetInput → t.pc = 0) ∧
    (s.inputs.head? = some .takeFrame → t.pc = s.pc) ∧
    (s.inputs = [] → t.pc = s.pc) := by
  cases step_cases h with
  | idle noEvent => simp [noEvent]
  | packet pkt rest u next how => simp [next, how.pc_eq]
  | reset rest next => simp [next]
  | take rest next => simp [next, transportTake_other]

@[simp] theorem serveState_packet_pc (pkt : Bytes) (s : State) : (serveState (.packet pkt) s).pc = s.pc + 1 := by
  obtain ⟨t, e, how⟩ := commandBody_bodyCase pkt s
  rw [serveState_packet e, advancePc_pc, how.pc_eq]

/-- Every packet served adds one to pc. -/
theorem foldl_serveState_packets_pc (packets : List Bytes) (s : State) :
    ((packets.map .packet).foldl (fun s e => serveState e s) s).pc = s.pc + packets.length := by
  induction packets generalizing s with
  | nil => rfl
  | cons pkt rest ih =>
    rw [List.map_cons, List.foldl_cons, ih, serveState_packet_pc, List.length_cons]
    omega

/-- A run of packets ends, with pc that many packets further on. -/
theorem run_packets_pc (packets : List Bytes) (s : State) :
    ∃ t, run (packets.map .packet) s = .next t ∧ t.pc = s.pc + packets.length :=
  ⟨_, run_eq _ _, foldl_serveState_packets_pc packets s⟩

/-- A run goes on from the state that a first part of its events ends in. -/
theorem run_append {first rest : List PortEvent} {s t : State} (h : run first s = .next t) :
    run (first ++ rest) s = run rest t := by
  rw [run_eq] at h
  cases h
  rw [run_eq, List.foldl_append, ← run_eq]
  rfl

/-- Settles O13: the clauses on a step by the cases of `StepCase`, the one on commands by one rule for the append
primitive, and the one on programs by cutting the run after its first `k` packets. -/
theorem pcCountsPackets : Obligations.PcCountsPackets := by
  refine ⟨fun _ => rfl, fun _ _ => step_pc, exec_withPc, fun cfg program k hk => ?_⟩
  obtain ⟨t, hrun, hpc⟩ := run_packets_pc (program.take k) (State.resetOf cfg)
  have hk' : t.pc = k := by simpa [hk] using hpc
  refine ⟨t, hrun, hk', ?_⟩
  calc run (program.map .packet) (State.resetOf cfg)
      = run ((program.take k).map .packet ++ (program.drop k).map .packet) (State.resetOf cfg) := by
        rw [← List.map_append, List.take_append_drop]
    _ = run ((program.drop t.pc).map .packet) t := by rw [run_append hrun, hk']

end Sys2Proof.Machine
end

section
/-! SUPPORT. Reading a packet loses nothing (R61 to R67 of 30_encoding.md): the command read from an accepted packet is
well formed, and its encoding is that packet again. -/

namespace Sys2Proof

open Machine

/-- A number read from n bytes as a word of that width is written as the same n bytes. -/
theorem be_ofNat_beDec {n w : Nat} {s : Bytes} (h : s.length = n) (hw : 256 ^ n = 2 ^ w) :
    be n (BitVec.ofNat w (beDec s)).toNat = s := by
  rw [BitVec.toNat_ofNat, ← hw, Nat.mod_eq_of_lt (beDec_lt_of_length h), be_beDec_of_length h]

/-- A pattern read from n bytes as a signed number of that width is written as the same n bytes. -/
theorem be_twos_signed {n w : Nat} {s : Bytes} (h : s.length = n) (hw : 256 ^ n = 2 ^ w) :
    be n (twos w (signed w (beDec s))) = s := by
  rw [twos_signed (hw ▸ beDec_lt_of_length h), be_beDec_of_length h]

/-- The bytes a packet's own count announces up to its end are as many as that count. -/
theorem counted_length {pkt : Bytes} {j n : Nat} (h : pkt.length = j + n) : (slice pkt j (j + n)).length = n := by
  simp [h]

/-- A count of k bytes right after the opcode, and the bytes that it counts up to the packet's end, are all the bytes after
the opcode. -/
theorem counted_field {pkt : Bytes} {j k : Nat} (hj : 1 + k = j) (h : pkt.length = j + beDec (slice pkt 1 j)) :
    be k (slice pkt j (j + beDec (slice pkt 1 j))).length ++ slice pkt j (j + beDec (slice pkt 1 j)) = pkt.drop 1 := by
  rw [counted_length h, be_beDec_of_length (by rw [slice_length]; omega), slice_join _ (by omega) (by omega),
    slice_to_end _ h]

/-- A count right after the opcode is below the bound of its k bytes. -/
theorem count_lt {pkt : Bytes} {j k : Nat} (hj : 1 + k = j) (h : j ≤ pkt.length) : beDec (slice pkt 1 j) < 256 ^ k :=
  beDec_lt_of_length (by rw [slice_length]; omega)

/-- The bytes that a count of k bytes right after the opcode announces are fewer than 256^k. -/
theorem counted_length_lt {pkt : Bytes} {j k : Nat} (hj : 1 + k = j) (h : pkt.length = j + beDec (slice pkt 1 j)) :
    (slice pkt j (j + beDec (slice pkt 1 j))).length < 256 ^ k := by
  rw [counted_length h]
  exact count_lt hj (by omega)

theorem decodeRecords_length (n : Nat) (s : Bytes) : (decodeRecords n s).length = n := by
  induction n generalizing s with
  | zero => rfl
  | succ n ih => rw [decodeRecords, List.length_cons, ih]

/-- Records read from exactly the bytes of n records have whole hashes. -/
theorem decodeRecords_wellFormed {n : Nat} {s : Bytes} (h : s.length = Config.recLen * n) :
    ∀ r ∈ decodeRecords n s, r.WellFormed := by
  induction n generalizing s with
  | zero => simp [decodeRecords]
  | succ n ih =>
    rw [decodeRecords, List.forall_mem_cons]
    refine ⟨?_, ih (by rw [List.length_drop, h, Nat.mul_succ, Nat.add_sub_cancel])⟩
    simp only [Config.recLen] at h
    simp only [InvRecord.WellFormed, slice_length, Config.recLen, Config.hashLen]
    omega

/-- Records read from exactly the bytes of n records are written as the same bytes. -/
theorem encodeRecords_decode {n : Nat} {s : Bytes} (h : s.length = Config.recLen * n) :
    (decodeRecords n s).flatMap encodeRecord = s := by
  induction n generalizing s with
  | zero => exact (List.eq_nil_of_length_eq_zero h).symm
  | succ n ih =>
    rw [decodeRecords, List.flatMap_cons, ih (by rw [List.length_drop, h, Nat.mul_succ, Nat.add_sub_cancel]),
      encodeRecord]
    simp only [Config.recLen] at h ⊢
    rw [be_ofNat_beDec (by rw [slice_length]; omega) rfl, slice_join _ (by omega) (by omega)]
    exact List.take_append_drop 36 s

/-- Where a packet is as long as its own count field announces, that field is whole and gives the length. -/
theorem length_of_counted {pkt : Bytes} {j n : Nat}
    (h : (if pkt.length < j then none else some n) = some pkt.length) : pkt.length = n := by
  simpa [eq_comm] using (Option.ite_none_left_eq_some.mp h).2

/-- When a packet is a command (R66): its opcode is assigned, and its length is the one it announces. -/
theorem decode_eq_command {pkt : Bytes} {i : Instr} (h : decode pkt = .command i) :
    ∃ (o : Op) (rest : Bytes), pkt = o.code :: rest ∧ o.format.packetLength pkt = some pkt.length ∧ i = o.operands pkt := by
  cases pkt with
  | nil => cases h
  | cons b rest =>
    simp only [decode] at h
    split at h
    · cases h
    · rename_i o hb
      split at h
      · cases h
      · rename_i n hn
        split at h
        · rename_i hlen
          cases h
          exact ⟨o, rest, by rw [Op.ofByte_eq_some.mp hb], hlen ▸ hn, rfl⟩
        · cases h

theorem Op.operands_op (o : Op) (pkt : Bytes) : (o.operands pkt).op = o := by cases o <;> rfl

/-- Fields of a packet of the announced length hold operands within their bounds (R62, R68). -/
theorem Op.operands_wellFormed {o : Op} {pkt : Bytes} (h : o.format.packetLength pkt = some pkt.length) :
    (o.operands pkt).WellFormed := by
  cases o with
  | clr => rfl
  | setmagic => rfl
  | wu16 => rfl
  | wu32 => rfl
  | wu64 => rfl
  | wi32 =>
    have hlen : 5 = pkt.length := Option.some.inj h
    exact decide_eq_true (signed_range (by decide) (count_lt (k := 4) rfl hlen.le))
  | wi64 =>
    have hlen : 9 = pkt.length := Option.some.inj h
    exact decide_eq_true (signed_range (by decide) (count_lt (k := 8) rfl hlen.le))
  | raw => exact decide_eq_true (counted_length_lt (k := 4) rfl (length_of_counted h))
  | addr =>
    have hlen : 27 = pkt.length := Option.some.inj h
    exact decide_eq_true (by rw [slice_length]; omega)
  | lpb => exact decide_eq_true (counted_length_lt (k := 2) rfl (length_of_counted h))
  | uag => exact decide_eq_true (counted_length_lt (k := 2) rfl (length_of_counted h))
  | invv =>
    have hlen := length_of_counted h
    have hn : beDec (slice pkt 1 3) < 2 ^ 16 := count_lt (k := 2) rfl (by omega)
    have hr := decodeRecords_wellFormed (n := beDec (slice pkt 1 3)) (s := pkt.drop 3) (by rw [List.length_drop]; omega)
    simpa [Op.operands, Instr.WellFormed, Instr.wellFormed, decodeRecords_length] using ⟨hn, hr⟩
  | frame => exact decide_eq_true (counted_length_lt (k := 1) rfl (length_of_counted h))

/-- A word that is a packet's one field is written as all the bytes after the opcode. -/
theorem word_field {pkt : Bytes} {j n w : Nat} (hj : 1 + n = j) (h : some j = some pkt.length) (hw : 256 ^ n = 2 ^ w) :
    be n (BitVec.ofNat w (beDec (slice pkt 1 j))).toNat = pkt.drop 1 := by
  have hlen : j = pkt.length := Option.some.inj h
  rw [be_ofNat_beDec (by rw [slice_length]; omega) hw, slice_to_end pkt hlen.symm]

/-- A signed number that is a packet's one field is written as all the bytes after the opcode. -/
theorem signed_field {pkt : Bytes} {j n w : Nat} (hj : 1 + n = j) (h : some j = some pkt.length) (hw : 256 ^ n = 2 ^ w) :
    be n (twos w (signed w (beDec (slice pkt 1 j)))) = pkt.drop 1 := by
  have hlen : j = pkt.length := Option.some.inj h
  rw [be_twos_signed (by rw [slice_length]; omega) hw, slice_to_end pkt hlen.symm]

/-- Every bit of every field of a packet of the announced length is significant (R67 c). -/
theorem Op.encodeFields_operands {o : Op} {pkt : Bytes} (h : o.format.packetLength pkt = some pkt.length) :
    encodeFields (o.operands pkt) = pkt.drop 1 := by
  cases o with
  | clr => exact (List.drop_eq_nil_of_le (Option.some.inj h).ge).symm
  | setmagic => exact word_field rfl h rfl
  | wu16 => exact word_field rfl h rfl
  | wu32 => exact word_field rfl h rfl
  | wu64 => exact word_field rfl h rfl
  | wi32 => exact signed_field rfl h rfl
  | wi64 => exact signed_field rfl h rfl
  | raw => exact counted_field rfl (length_of_counted h)
  | addr =>
    have hlen : 27 = pkt.length := Option.some.inj h
    simp only [Op.operands, encodeFields]
    rw [be_ofNat_beDec (by rw [slice_length]; omega) rfl, be_ofNat_beDec (by rw [slice_length]; omega) rfl,
      slice_join _ (by omega) (by omega), slice_join _ (by omega) (by omega)]
    exact slice_to_end pkt hlen.symm
  | lpb => exact counted_field rfl (length_of_counted h)
  | uag => exact counted_field rfl (length_of_counted h)
  | invv =>
    have hlen := length_of_counted h
    simp only [Op.operands, encodeFields]
    rw [decodeRecords_length, encodeRecords_decode (by rw [List.length_drop]; omega),
      be_beDec_of_length (by rw [slice_length]; omega), ← slice_to_end pkt (i := 3) rfl,
      slice_join _ (by omega) (by omega), slice_to_end pkt rfl]
  | frame => exact counted_field rfl (length_of_counted h)

/-- The command read from an accepted packet is well formed and encodes to that packet. -/
theorem encode_of_decode {pkt : Bytes} {i : Instr} (h : decode pkt = .command i) : i.WellFormed ∧ encode i = pkt := by
  obtain ⟨o, rest, hpkt, hlen, rfl⟩ := decode_eq_command h
  refine ⟨Op.operands_wellFormed hlen, ?_⟩
  rw [encode, Op.operands_op, Op.encodeFields_operands hlen, hpkt, List.drop_one, List.tail_cons]

end Sys2Proof
end

section
/-! SUPPORT. Which bytes a command appends (R41, R45 of 20_memory.md): each of the ten appending commands is one append of
its whole output, and no other way leads into PBUF. -/

namespace Sys2Proof

open Machine

/-- The output of an appending command: the bytes it appends where it passes its range check; none for the three commands
that append nothing. `exec_of_output` ties it to `exec`. -/
def Instr.output : Instr → Option Bytes
  | .wu16 v => some (le 2 v.toNat)
  | .wu32 v => some (le 4 v.toNat)
  | .wu64 v => some (le 8 v.toNat)
  | .wi32 i => some (le 4 (twos 32 i))
  | .wi64 i => some (le 8 (twos 64 i))
  | .raw s => some s
  | .addr services address port => some (addrRecord services address port)
  | .lpb s => some (lengthPrefixed s)
  | .uag t => some (lengthPrefixed (userAgent t))
  | .invv records => some (inventoryVector records)
  | .clr => none
  | .setmagic _ => none
  | .frame _ => none

/-- R45's table gives the length of the output. -/
theorem Instr.output_length {i : Instr} (h : i.WellFormed) : i.output.map List.length = i.appendedLength := by
  cases i with
  | clr => rfl
  | setmagic m => rfl
  | wu16 v => rfl
  | wu32 v => rfl
  | wu64 v => rfl
  | wi32 v => rfl
  | wi64 v => rfl
  | raw s => rfl
  | addr services address port =>
    have ha : address.length = 16 := of_decide_eq_true h
    simp [Instr.output, Instr.appendedLength, ha]
  | lpb s => simp [Instr.output, Instr.appendedLength]
  | uag t =>
    simp only [Instr.output, Instr.appendedLength, Option.map_some, lengthPrefixed_length, userAgent_length]
    congr 1
    omega
  | invv records =>
    have hr : ∀ r ∈ records, r.WellFormed := by
      simpa using (Bool.and_eq_true_iff.mp h).2
    simp [Instr.output, Instr.appendedLength, inventoryVector_length hr]
  | frame name => rfl

end Sys2Proof

namespace Sys2Proof.Machine

/-- A command whose operands are out of range raises that fault and does nothing else (R150, R190). -/
theorem exec_of_rangeFault {i : Instr} {c : FaultCode} (h : i.rangeFault = some c) (s : State) :
    exec i s = .next (s.faulted c) := by
  cases i with
  | lpb bytes =>
    obtain ⟨hlong, hc⟩ := Option.ite_none_right_eq_some.mp h
    cases hc
    exact if_pos hlong
  | uag text =>
    obtain ⟨hlong, hc⟩ := Option.ite_none_right_eq_some.mp h
    cases hc
    exact if_pos (by rwa [userAgent_length])
  | invv records =>
    obtain ⟨hmany, hc⟩ := Option.ite_none_right_eq_some.mp h
    cases hc
    exact if_pos hmany
  | frame name =>
    obtain ⟨hlong, hc⟩ := Option.ite_none_right_eq_some.mp h
    cases hc
    exact if_pos hlong
  | _ => cases h

/-- An appending command whose operands are in range is one append of its whole output (R41). -/
theorem exec_of_output {i : Instr} {bytes : Bytes} (h : i.output = some bytes) (hr : i.rangeFault = none) (s : State) :
    exec i s = append bytes s := by
  cases i with
  | clr => cases h
  | setmagic m => cases h
  | frame name => cases h
  | lpb s =>
    cases h
    exact if_neg fun hlong => nomatch (if_pos hlong).symm.trans hr
  | uag text =>
    cases h
    exact if_neg fun hlong => nomatch (if_pos (by rwa [userAgent_length] at hlong)).symm.trans hr
  | invv records =>
    cases h
    exact if_neg fun hmany => nomatch (if_pos hmany).symm.trans hr
  | _ =>
    cases h
    rfl

/-- A command with no output puts no byte into PBUF. -/
theorem exec_pbuf_of_no_output {i : Instr} {s t : State} (h : i.output = none) (run : exec i s = .next t) :
    t.pbuf = [] ∨ t.pbuf = s.pbuf := by
  cases i with
  | clr =>
    cases run
    exact .inl rfl
  | setmagic m =>
    cases run
    exact .inr rfl
  | frame name =>
    simp only [exec, execFrame] at run
    split at run
    · cases run
      exact .inl rfl
    · cases run
      exact .inl rfl
  | _ => cases h

/-- What a command can do to PBUF. -/
theorem exec_pbuf {i : Instr} {s t : State} (run : exec i s = .next t) :
    t.pbuf = [] ∨ t.pbuf = s.pbuf ∨ ∃ bytes, i.output = some bytes ∧ t.pbuf = s.pbuf ++ bytes := by
  cases hr : i.rangeFault with
  | some c =>
    rw [exec_of_rangeFault hr] at run
    cases run
    exact .inl rfl
  | none =>
    cases ho : i.output with
    | none => exact (exec_pbuf_of_no_output ho run).imp_right .inl
    | some bytes =>
      rw [exec_of_output ho hr] at run
      rcases append_cases bytes s with ⟨_, e⟩ | ⟨_, e⟩
      · rw [e] at run
        cases run
        exact .inr (.inr ⟨bytes, rfl, rfl⟩)
      · rw [e] at run
        cases run
        exact .inl rfl

/-- What the body of a command cycle can do to PBUF: bytes enter only as the output of the command read. -/
theorem BodyCase.pbuf {pkt : Bytes} {s t : State} (h : BodyCase pkt s t) :
    t.pbuf = [] ∨ t.pbuf = s.pbuf ∨
      ∃ i bytes, decode pkt = .command i ∧ i.output = some bytes ∧ t.pbuf = s.pbuf ++ bytes := by
  cases h with
  | latched _ _ => exact .inr (.inl rfl)
  | released _ _ => exact .inl rfl
  | illegal _ _ => exact .inl rfl
  | malformed _ _ => exact .inl rfl
  | executed i t _ verdict run _ =>
    rcases exec_pbuf run with h | h | ⟨bytes, ho, h⟩
    · exact .inl h
    · exact .inr (.inl h)
    · exact .inr (.inr ⟨i, bytes, verdict, ho, h⟩)

/-- A step that leaves PBUF neither empty nor as it was has run a command from a packet, and put its output at the end of
PBUF. -/
theorem step_pbuf_grows {s t : State} (h : step s = .next t) (hne : t.pbuf ≠ s.pbuf) (hfull : t.pbuf ≠ []) :
    ∃ pkt i bytes, s.inputs.head? = some (.packet pkt) ∧ decode pkt = .command i ∧ i.output = some bytes ∧
      t.pbuf = s.pbuf ++ bytes := by
  cases step_cases h with
  | idle _ => exact absurd rfl hne
  | packet pkt rest u next how =>
    rcases how.pbuf with e | e | ⟨i, bytes, verdict, ho, e⟩
    · exact absurd e hfull
    · exact absurd e hne
    · exact ⟨pkt, i, bytes, by rw [next, List.head?_cons], verdict, ho, e⟩
  | reset rest _ => exact absurd rfl hfull
  | take rest _ =>
    obtain ⟨_, same, _⟩ := transportTake_other (s.withInputs rest)
    exact absurd same hne

/-- An append of no bytes responds and changes nothing else (R41). -/
theorem append_nil {s : State} (h : s.pbuf.length ≤ s.cap) :
    append [] s = .next { s with responses := s.responses ++ [.ok] } := by
  rw [append_of_fits (bytes := []) h, State.appended, List.append_nil]

/-- Settles O27: the clauses on `append` by its two outcomes, the one on commands by `Instr.output`, and the one on steps
by the cases of `StepCase`, where the packet is the encoding of the command read from it. -/
theorem appendIsAllOrNothingAtTheEnd : Obligations.AppendIsAllOrNothingAtTheEnd := by
  refine ⟨fun bytes s => ⟨fun hfits => ?_, append_of_overflow, append_nil⟩, fun i n hwf hn hr => ?_,
    fun s t hstep hne hfull => ?_⟩
  · exact ⟨append_of_fits hfits, fun _ ha => readByte_appended ha, fun k _ => readByte_appended_new s bytes k⟩
  · rw [← Instr.output_length hwf, Option.map_eq_some_iff] at hn
    obtain ⟨bytes, ho, hlen⟩ := hn
    exact ⟨bytes, hlen, exec_of_output ho hr⟩
  · obtain ⟨pkt, i, bytes, hhead, hdec, ho, hpbuf⟩ := step_pbuf_grows hstep hne hfull
    obtain ⟨hwf, henc⟩ := encode_of_decode hdec
    refine ⟨i, bytes.length, bytes, ?_, by rw [hhead, henc], hpbuf, rfl⟩
    rw [← Instr.output_length hwf, ho, Option.map_some]

end Sys2Proof.Machine
end

section
/-! SUPPORT. What `pktLen` and `decode` answer, by the first byte of the packet (R64 to R66 of 30_encoding.md). -/

namespace Sys2Proof

open Machine

theorem mem_assignedOpcodes {b : Byte} : b ∈ assignedOpcodes ↔ ∃ o : Op, b = o.code := by
  constructor
  · intro h
    obtain ⟨o, _, e⟩ := List.mem_map.mp (show b ∈ Op.all.map Op.code from h)
    exact ⟨o, e.symm⟩
  · rintro ⟨o, rfl⟩
    exact show o.code ∈ Op.all.map Op.code from List.mem_map_of_mem o.mem_all

theorem Op.ofByte_unassigned {b : Byte} (h : b ∉ assignedOpcodes) : Op.ofByte b = none :=
  Op.ofByte_eq_none.mpr fun o e => h (mem_assignedOpcodes.mpr ⟨o, e⟩)

theorem pktLen_code (o : Op) (rest : Bytes) : pktLen (o.code :: rest) = o.format.packetLength (o.code :: rest) := by
  rw [pktLen, Op.ofByte_code]

theorem pktLen_unassigned {b : Byte} (h : b ∉ assignedOpcodes) (rest : Bytes) : pktLen (b :: rest) = none := by
  rw [pktLen, Op.ofByte_unassigned h]

theorem decode_unassigned {b : Byte} (h : b ∉ assignedOpcodes) (rest : Bytes) : decode (b :: rest) = .illegal := by
  rw [decode, Op.ofByte_unassigned h]

theorem decode_of_pktLen {o : Op} {rest : Bytes} (h : pktLen (o.code :: rest) = some (o.code :: rest).length) :
    decode (o.code :: rest) = .command (o.operands (o.code :: rest)) := by
  rw [pktLen_code] at h
  simp only [decode, Op.ofByte_code, h, if_true]

theorem decode_of_pktLen_ne {o : Op} {rest : Bytes} (h : pktLen (o.code :: rest) ≠ some (o.code :: rest).length) :
    decode (o.code :: rest) = .malformed := by
  rw [pktLen_code] at h
  simp only [decode, Op.ofByte_code]
  split
  · rfl
  · rename_i n hn
    exact if_neg fun e => h (by rw [hn, e])

/-- The four kinds of packets that R66 tells apart. -/
inductive DecodeCase : Bytes → Prop where
  | empty : DecodeCase []
  | unassigned (b : Byte) (rest : Bytes) (free : b ∉ assignedOpcodes) : DecodeCase (b :: rest)
  | whole (o : Op) (rest : Bytes) (len : pktLen (o.code :: rest) = some (o.code :: rest).length) :
      DecodeCase (o.code :: rest)
  | wrongLength (o : Op) (rest : Bytes) (len : pktLen (o.code :: rest) ≠ some (o.code :: rest).length) :
      DecodeCase (o.code :: rest)

theorem decodeCase (pkt : Bytes) : DecodeCase pkt := by
  cases pkt with
  | nil => exact .empty
  | cons b rest =>
    by_cases hb : b ∈ assignedOpcodes
    · obtain ⟨o, rfl⟩ := mem_assignedOpcodes.mp hb
      by_cases hlen : pktLen (o.code :: rest) = some (o.code :: rest).length
      · exact .whole o rest hlen
      · exact .wrongLength o rest hlen
    · exact .unassigned b rest hb

theorem Op.code_mem_assignedOpcodes (o : Op) : o.code ∈ assignedOpcodes := mem_assignedOpcodes.mpr ⟨o, rfl⟩

theorem decode_eq_illegal {pkt : Bytes} :
    decode pkt = .illegal ↔ pkt = [] ∨ ∃ b rest, pkt = b :: rest ∧ b ∉ assignedOpcodes := by
  cases decodeCase pkt with
  | empty => exact iff_of_true rfl (.inl rfl)
  | unassigned b rest free => exact iff_of_true (decode_unassigned free rest) (.inr ⟨b, rest, rfl, free⟩)
  | whole o rest len => simp [decode_of_pktLen len, o.code_mem_assignedOpcodes]
  | wrongLength o rest len => simp [decode_of_pktLen_ne len, o.code_mem_assignedOpcodes]

theorem decode_eq_malformed {pkt : Bytes} :
    decode pkt = .malformed ↔ ∃ b rest, pkt = b :: rest ∧ b ∈ assignedOpcodes ∧ pktLen pkt ≠ some pkt.length := by
  cases decodeCase pkt with
  | empty => simp [decode]
  | unassigned b rest free => simp [decode_unassigned free, free]
  | whole o rest len => simp [decode_of_pktLen len, len]
  | wrongLength o rest len =>
    exact iff_of_true (decode_of_pktLen_ne len) ⟨o.code, rest, rfl, o.code_mem_assignedOpcodes, len⟩

end Sys2Proof
end

section
/-! SUPPORT. Writing a packet loses nothing (R61 to R66 of 30_encoding.md): the fields of a well-formed command's packet are
read back as its operands, so that two well-formed commands with one packet are one command. -/

namespace Sys2Proof

open Machine Laws.PacketLength

/-- A command's packet announces its own length. -/
theorem pktLen_encode {i : Instr} (h : i.WellFormed) : pktLen (encode i) = some (encode i).length := by
  cases i with
  | clr => exact clr h
  | setmagic m => exact setmagic m h
  | wu16 v => exact wu16 v h
  | wu32 v => exact wu32 v h
  | wu64 v => exact wu64 v h
  | wi32 v => exact wi32 v h
  | wi64 v => exact wi64 v h
  | raw s => exact raw s h
  | addr services address port => exact addr services address port h
  | lpb s => exact lpb s h
  | uag t => exact uag t h
  | invv records => exact invv records h
  | frame name => exact frame name h

/-- A number that is a packet's one field is read back. -/
theorem sole_field {op : Byte} {k n j : Nat} (h : n < 256 ^ k) (hj : 1 + k = j) : beDec (slice (op :: be k n) 1 j) = n := by
  simpa using field_after_opcode (op := op) (rest := []) h hj

/-- A word that is a packet's one field is read back. -/
theorem sole_word {op : Byte} {k w j : Nat} (v : BitVec w) (hw : 2 ^ w = 256 ^ k) (hj : 1 + k = j) :
    BitVec.ofNat w (beDec (slice (op :: be k v.toNat) 1 j)) = v := by
  rw [sole_field (hw ▸ v.isLt) hj, BitVec.ofNat_toNat, BitVec.setWidth_eq]

/-- A signed number that is a packet's one field is read back. -/
theorem sole_signed {op : Byte} {k w j : Nat} {v : Int} (h : InSigned w v) (hpos : 0 < w) (hw : 2 ^ w = 256 ^ k)
    (hj : 1 + k = j) : signed w (beDec (slice (op :: be k (twos w v)) 1 j)) = v := by
  rw [sole_field (hw ▸ twos_lt w v) hj, signed_twos hpos h]

/-- The bytes that a count right after the opcode counts are read back. -/
theorem counted_bytes {op : Byte} {k j : Nat} {s : Bytes} (h : s.length < 256 ^ k) (hj : 1 + k = j) :
    slice (op :: (be k s.length ++ s)) j (j + beDec (slice (op :: (be k s.length ++ s)) 1 j)) = s := by
  rw [field_after_opcode h hj]
  exact slice_append_end (s := op :: be k s.length) (by rw [List.length_cons, be_length]; omega) rfl

/-- The operands of a command are what its packet's fields hold. -/
theorem operands_encode {i : Instr} (h : i.WellFormed) : i.op.operands (encode i) = i := by
  cases i with
  | clr => rfl
  | setmagic m => exact congrArg Instr.setmagic (sole_word m rfl rfl)
  | wu16 v => exact congrArg Instr.wu16 (sole_word v rfl rfl)
  | wu32 v => exact congrArg Instr.wu32 (sole_word v rfl rfl)
  | wu64 v => exact congrArg Instr.wu64 (sole_word v rfl rfl)
  | wi32 v => exact congrArg Instr.wi32 (sole_signed (of_decide_eq_true h) (by decide) rfl rfl)
  | wi64 v => exact congrArg Instr.wi64 (sole_signed (of_decide_eq_true h) (by decide) rfl rfl)
  | raw s => exact congrArg Instr.raw (counted_bytes (of_decide_eq_true h) rfl)
  | addr services address port =>
    have ha : address.length = 16 := of_decide_eq_true h
    have hpkt : encode (.addr services address port) =
        Op.addr.code :: (be 8 services.toNat ++ (address ++ be 2 port.toNat)) := by
      rw [encode, encodeFields, List.append_assoc, Instr.op]
    have hservices : beDec (slice (encode (.addr services address port)) 1 9) = services.toNat :=
      hpkt ▸ field_after_opcode services.isLt rfl
    have haddress : slice (encode (.addr services address port)) 9 25 = address :=
      hpkt ▸ slice_append (s := Op.addr.code :: be 8 services.toNat) rfl (by rw [ha])
    have hport : slice (encode (.addr services address port)) 25 27 = be 2 port.toNat :=
      slice_append_end (s := Op.addr.code :: (be 8 services.toNat ++ address)) (by simp [ha]) rfl
    simp only [Instr.op, Op.operands, hservices, haddress, hport, beDec_be (n := 2) port.isLt, BitVec.ofNat_toNat,
      BitVec.setWidth_eq]
  | lpb s => exact congrArg Instr.lpb (counted_bytes (of_decide_eq_true h) rfl)
  | uag t => exact congrArg Instr.uag (counted_bytes (of_decide_eq_true h) rfl)
  | invv records =>
    obtain ⟨hn, hr⟩ : records.length < 256 ^ 2 ∧ ∀ r ∈ records, r.WellFormed := by
      simpa [Instr.WellFormed, Instr.wellFormed] using h
    refine congrArg Instr.invv ?_
    rw [encode, encodeFields, field_after_opcode hn rfl]
    exact decodeRecords_encode hr
  | frame name => exact congrArg Instr.frame (counted_bytes (of_decide_eq_true h) rfl)

theorem decode_encode {i : Instr} (h : i.WellFormed) : decode (encode i) = .command i :=
  (decode_of_pktLen (pktLen_encode h)).trans (congrArg DecodeResult.command (operands_encode h))

theorem encode_injective {i j : Instr} (hi : i.WellFormed) (hj : j.WellFormed) (h : encode i = encode j) : i = j :=
  DecodeResult.command.inj (by rw [← decode_encode hi, h, decode_encode hj])

/-- Settles O3: the first two clauses by the four kinds of packets, the third by reading a packet losing nothing and by
writing one losing nothing. -/
theorem decodeVerdicts : Obligations.DecodeVerdicts := by
  refine fun pkt => ⟨decode_eq_illegal, decode_eq_malformed, ?_⟩
  rintro b rest rfl hb hlen
  obtain ⟨o, rfl⟩ := mem_assignedOpcodes.mp hb
  have hdec := decode_of_pktLen hlen
  obtain ⟨hwf, henc⟩ := encode_of_decode hdec
  refine ⟨_, hdec, hwf, by rw [Op.operands_op], henc, fun j hj hpkt => ?_⟩
  exact encode_injective hj hwf (hpkt.trans henc.symm)

end Sys2Proof
end

section
/-! SUPPORT. The cutting of a byte stream into packets (R65 of 30_encoding.md). -/

namespace Sys2Proof

open Machine

/-- The count field of a packet is whole where its k bytes follow the opcode. -/
theorem ite_length_cons_lt {b : Byte} {rest : Bytes} {k : Nat} {x : Option Nat} :
    (if (b :: rest).length < k + 1 then none else x) = if rest.length < k then none else x := by
  simp only [List.length_cons, Nat.add_lt_add_iff_right]

/-- A count of one byte is the byte that follows the opcode. -/
theorem Format.packetLength_FV8 (b : Byte) (rest : Bytes) :
    Format.packetLength .FV8 (b :: rest) = rest.head?.map fun n => 2 + n.toNat := by
  cases rest with
  | nil => rfl
  | cons n rest => simp [Format.packetLength, slice, beDec, leDec]

theorem cutWithin_nil (n : Nat) : cutWithin n [] = some [] := by cases n <;> rfl

theorem cutWithin_of_none {s : Bytes} (n : Nat) (hs : s ≠ []) (h : pktLen s = none) : cutWithin n s = none := by
  cases n with
  | zero => exact if_neg hs
  | succ n => rw [cutWithin, if_neg hs, h]

theorem cutWithin_of_short {s : Bytes} {k : Nat} (n : Nat) (hs : s ≠ []) (h : pktLen s = some k) (hk : s.length < k) :
    cutWithin n s = none := by
  cases n with
  | zero => exact if_neg hs
  | succ n => simp only [cutWithin, if_neg hs, h, if_pos hk]

theorem cutWithin_succ {s : Bytes} {k : Nat} (n : Nat) (hs : s ≠ []) (h : pktLen s = some k) (hk : k ≤ s.length) :
    cutWithin (n + 1) s = (cutWithin n (s.drop k)).map (s.take k :: ·) := by
  simp only [cutWithin, if_neg hs, h, if_neg (Nat.not_lt.mpr hk)]

/-- A packet has at least one byte, so any two bounds that are not below the stream's length cut it the same way. -/
theorem cutWithin_eq_cutWithin {n m : Nat} {s : Bytes} (hn : s.length ≤ n) (hm : s.length ≤ m) :
    cutWithin n s = cutWithin m s := by
  induction n generalizing m s with
  | zero => rw [List.eq_nil_of_length_eq_zero (Nat.le_zero.mp hn), cutWithin_nil, cutWithin_nil]
  | succ n ih =>
    rcases eq_or_ne s [] with rfl | hs
    · rw [cutWithin_nil, cutWithin_nil]
    obtain ⟨m, rfl⟩ := Nat.exists_eq_succ_of_ne_zero (Nat.pos_iff_ne_zero.mp ((List.length_pos_iff.mpr hs).trans_le hm))
    cases hk : pktLen s with
    | none => rw [cutWithin_of_none _ hs hk, cutWithin_of_none _ hs hk]
    | some k =>
      rcases Nat.lt_or_ge s.length k with hlt | hle
      · rw [cutWithin_of_short _ hs hk hlt, cutWithin_of_short _ hs hk hlt]
      · have hpos := pktLen_pos hk
        rw [cutWithin_succ n hs hk hle, cutWithin_succ m hs hk hle,
          ih (m := m) (by rw [List.length_drop]; omega) (by rw [List.length_drop]; omega)]

/-- The first packet is split off, and the rest is cut. -/
theorem cut_of_pktLen {s : Bytes} {k : Nat} (h : pktLen s = some k) (hk : k ≤ s.length) :
    cut s = (cut (s.drop k)).map (s.take k :: ·) := by
  have hpos := pktLen_pos h
  calc cut s = cutWithin (s.length + 1) s := cutWithin_eq_cutWithin le_rfl (Nat.le_succ _)
    _ = (cutWithin s.length (s.drop k)).map (s.take k :: ·) :=
        cutWithin_succ _ (List.length_pos_iff.mp (hpos.trans_le hk)) h hk
    _ = (cut (s.drop k)).map (s.take k :: ·) := by
        rw [cut, cutWithin_eq_cutWithin (m := (s.drop k).length) (by rw [List.length_drop]; omega) le_rfl]

/-- Settles O4: the table by the formats of the opcodes, and the cutting by its three outcomes. -/
theorem packetLengthsAndCutting : Obligations.PacketLengthsAndCutting := by
  refine ⟨fun b rest => ⟨?_, ?_, ?_, ?_, ?_, ?_, ?_, ?_, ?_⟩, rfl, fun s hs => ⟨cutWithin_of_none _ hs, fun k hk =>
    ⟨cutWithin_of_short _ hs hk, cut_of_pktLen hk⟩⟩, fun b rest hb => ?_⟩
  · exact fun h => h ▸ rfl
  · exact fun h => h ▸ rfl
  · rintro (rfl | rfl | rfl) <;> rfl
  · rintro (rfl | rfl) <;> rfl
  · exact fun h => h ▸ rfl
  · rintro rfl
    exact (pktLen_code .raw rest).trans ite_length_cons_lt
  · rintro (rfl | rfl)
    · exact (pktLen_code .lpb rest).trans ite_length_cons_lt
    · exact (pktLen_code .uag rest).trans ite_length_cons_lt
  · rintro rfl
    exact (pktLen_code .invv rest).trans ite_length_cons_lt
  · rintro rfl
    exact (pktLen_code .frame rest).trans (Format.packetLength_FV8 _ rest)
  · exact cutWithin_of_none _ (List.cons_ne_nil b rest) (pktLen_unassigned hb rest)

end Sys2Proof
end

section
/-! SUPPORT. The bytes of a word on the wire, as slices of its bits (section 6 of 00_scope.md), and the commands of the
primitive codec (40_primitive_codec.md): each is one append of its operand's bytes (R100). -/

namespace Sys2Proof

open Machine Laws.PacketLength

/-- Byte k of a word written least significant first is its slice v[8k+7 : 8k]. -/
theorem le_toNat_eq_wireLE {w : Nat} (n : Nat) (v : BitVec w) : le n v.toNat = wireLE n v := by
  refine List.ext_getElem? fun k => ?_
  rcases Nat.lt_or_ge k n with hk | hk
  · have hbyte : BitVec.ofNat 8 (v.toNat / 256 ^ k) = v.extractLsb' (8 * k) 8 := by
      rw [BitVec.extractLsb', Nat.shiftRight_eq_div_pow, pow_mul, show 2 ^ 8 = 256 from rfl]
    rw [le_getElem? _ _ _ hk, hbyte, wireLE, List.getElem?_map, List.getElem?_range hk, Option.map_some]
  · rw [List.getElem?_eq_none (by simpa using hk), List.getElem?_eq_none (by simpa [wireLE] using hk)]

theorem be_toNat_eq_wireBE {w : Nat} (n : Nat) (v : BitVec w) : be n v.toNat = wireBE n v :=
  congrArg List.reverse (le_toNat_eq_wireLE n v)

/-- A count that fits in a word is written as that word. -/
theorem be_eq_wireBE_of_lt {w m : Nat} (n : Nat) (h : m < 2 ^ w) : be n m = wireBE n (BitVec.ofNat w m) := by
  rw [← be_toNat_eq_wireBE, BitVec.toNat_ofNat, Nat.mod_eq_of_lt h]

/-- An appending command whose operands are in range has the two outcomes of one append of its output (R41). -/
theorem exec_output_spec {i : Instr} {bytes : Bytes} (ho : i.output = some bytes) (hr : i.rangeFault = none) (s : State) :
    AppendsOrOverflows (exec i s) s bytes := by
  rw [exec_of_output ho hr]
  exact append_spec bytes s

/-- A command whose output is a word of n bytes appends the slices of the word, least significant first. -/
theorem exec_word_spec {i : Instr} {w n : Nat} (v : BitVec w) (ho : i.output = some (le n v.toNat))
    (hr : i.rangeFault = none) (s : State) : AppendsOrOverflows (exec i s) s (wireLE n v) :=
  exec_output_spec (ho.trans (congrArg some (le_toNat_eq_wireLE n v))) hr s

/-- A RAW packet announces the value of its four length bytes (R65). -/
theorem pktLen_raw {len : Bytes} (h : len.length = 4) (data : Bytes) :
    pktLen (Op.raw.code :: (len ++ data)) = some (5 + beDec len) := by
  have hfield := fv32 (op := Op.raw.code) (rest := data) (beDec_lt_of_length h)
  rw [be_beDec_of_length h] at hfield
  exact (pktLen_code .raw _).trans hfield

/-- A RAW packet whose length field disagrees with its data is malformed (R67 b). -/
theorem decode_raw_malformed {len data : Bytes} (h : len.length = 4) (hne : data.length ≠ beDec len) :
    decode (Op.raw.code :: (len ++ data)) = .malformed := by
  refine decode_of_pktLen_ne ?_
  simp only [pktLen_raw h, List.length_cons, List.length_append, h, ne_eq, Option.some.injEq]
  omega

/-- Settles O35: the packet by its count fitting in 32 bits, the effect by the two outcomes of an append, the last clause
by the length that the packet announces. -/
theorem rawRule : Obligations.RawRule := by
  refine ⟨fun bytes s hlen _ => ⟨?_, exec_output_spec rfl rfl s⟩, fun _ _ => decode_raw_malformed⟩
  exact congrArg (0x18#8 :: · ++ bytes) (be_eq_wireBE_of_lt 4 hlen)

/-- Settles O30, by `exec_word_spec`. -/
theorem wu16Rule : Obligations.Wu16Rule := fun v s _ =>
  ⟨congrArg (0x10#8 :: ·) (be_toNat_eq_wireBE 2 v), exec_word_spec (i := .wu16 v) v rfl rfl s⟩

/-- Settles O31, by `exec_word_spec`. -/
theorem wu32Rule : Obligations.Wu32Rule := fun v s _ =>
  ⟨congrArg (0x11#8 :: ·) (be_toNat_eq_wireBE 4 v), exec_word_spec (i := .wu32 v) v rfl rfl s⟩

/-- Settles O32, by `exec_word_spec`. -/
theorem wu64Rule : Obligations.Wu64Rule := fun v s _ =>
  ⟨congrArg (0x12#8 :: ·) (be_toNat_eq_wireBE 8 v), exec_word_spec (i := .wu64 v) v rfl rfl s⟩

end Sys2Proof
end

section
/-! SUPPORT. The network-address packer ADDR (41_network_address.md): its record and its packet as slices of the operands'
bits. -/

namespace Sys2Proof

open Machine

/-- The record in bits: services least significant byte first, the address verbatim, the port's high byte first (R120). -/
theorem addrRecord_eq_wire (services : BitVec 64) (address : Bytes) (port : BitVec 16) :
    addrRecord services address port =
      wireLE 8 services ++ address ++ [port.extractLsb' 8 8, port.extractLsb' 0 8] := by
  rw [addrRecord, le_toNat_eq_wireLE, be_toNat_eq_wireBE]
  rfl

/-- The packet in bits: both numbers are big-endian on the command port (R61, R63); the record
(R120) keeps that order for the port alone. -/
theorem encode_addr_eq_wire (services : BitVec 64) (address : Bytes) (port : BitVec 16) :
    encode (.addr services address port) = Op.addr.code :: (wireBE 8 services ++ address ++ wireBE 2 port) := by
  rw [encode, encodeFields, be_toNat_eq_wireBE, be_toNat_eq_wireBE, Instr.op]

/-- ADDR has the two outcomes of one append of its record (R41, R120). -/
theorem exec_addr_spec (services : BitVec 64) (address : Bytes) (port : BitVec 16) (s : State) :
    AppendsOrOverflows (exec (.addr services address port) s) s (addrRecord services address port) :=
  exec_output_spec (i := .addr services address port) rfl rfl s

/-- An ADDR packet announces 27 bytes, whatever follows its opcode (R65); one of another length is malformed (R67 b). -/
theorem decode_addr_malformed {fields : Bytes} (h : fields.length ≠ 26) : decode (Op.addr.code :: fields) = .malformed := by
  refine decode_of_pktLen_ne ?_
  have hannounced : pktLen (Op.addr.code :: fields) = some 27 := pktLen_code .addr fields
  rw [hannounced, List.length_cons, ne_eq, Option.some.injEq]
  omega

/-- Settles O36: the packet and the record by their bytes in bits, the effect by the two outcomes of an append of 26 bytes,
the last clause by the length that the packet announces. -/
theorem addrRule : Obligations.AddrRule := by
  refine ⟨fun services address port s ha _ => ⟨encode_addr_eq_wire services address port, ?_⟩,
    fun _ => decode_addr_malformed⟩
  have hspec := exec_addr_spec services address port s
  rw [AppendsOrOverflows, addrRecord_length, ha, addrRecord_eq_wire] at hspec
  exact hspec

end Sys2Proof
end

section
/-! SUPPORT. The checksum as a number (42_checksum.md): four digest bytes read least significant first (R131), and its
fixed value for the empty payload (R134). -/

namespace Sys2Proof.Machine

/-- The little-endian reading of four bytes, written out (R131). -/
theorem leDec_four (d0 d1 d2 d3 : Byte) :
    leDec [d0, d1, d2, d3] = d0.toNat + 256 * d1.toNat + 65536 * d2.toNat + 16777216 * d3.toNat := by
  simp only [leDec]
  omega

/-- The double hash has first four bytes, since a digest has 32 (R132). -/
theorem doubleHash_take_four (s : Bytes) :
    ∃ d0 d1 d2 d3 : Byte, (hash256 (hash256 s)).take 4 = [d0, d1, d2, d3] :=
  List.length_eq_four.mp (by simp)

/-- The checksum as a number, from the first four bytes of the double hash. -/
theorem checksum_toNat_of_take {s : Bytes} {d0 d1 d2 d3 : Byte} (h : (hash256 (hash256 s)).take 4 = [d0, d1, d2, d3]) :
    (checksum s).toNat = d0.toNat + 256 * d1.toNat + 65536 * d2.toNat + 16777216 * d3.toNat := by
  rw [checksum_toNat, h, leDec_four]

/-- Settles O41, by the digest's length and the little-endian reading of its first four bytes. -/
theorem checksumIsLittleEndianRead : Obligations.ChecksumIsLittleEndianRead := by
  intro s
  obtain ⟨d0, d1, d2, d3, h⟩ := doubleHash_take_four s
  exact ⟨hash256_length s, d0, d1, d2, d3, h, checksum_toNat_of_take h⟩

/-- The source's fixed point: the bytes 5d f6 e0 e2 that go out for the empty payload (R134). -/
theorem doubleHash_nil_take_four : (hash256 (hash256 [])).take 4 = [0x5d#8, 0xf6#8, 0xe0#8, 0xe2#8] := by
  decide +kernel

/-- Settles O43: the bytes by running the hash, the number by reading them least significant first. -/
theorem emptyPayloadChecksum : Obligations.EmptyPayloadChecksum :=
  ⟨doubleHash_nil_take_four, BitVec.eq_of_toNat_eq (checksum_toNat_of_take doubleHash_nil_take_four)⟩

end Sys2Proof.Machine
end

section
/-! SUPPORT. The variable-length-field encoder (43_varlen_fields.md), for LPB and INVV: a packet whose length or count field
disagrees with its data, the two outcomes of an operand in range, and where a record's bytes stand. -/

namespace Sys2Proof

open Machine Laws.PacketLength

/-- A packet of another length than the one it announces is malformed (R67 b). -/
theorem decode_malformed_of_announced {o : Op} {rest : Bytes} {n : Nat}
    (h : o.format.packetLength (o.code :: rest) = some n) (hne : n ≠ rest.length + 1) :
    decode (o.code :: rest) = .malformed := by
  refine decode_of_pktLen_ne ?_
  rwa [pktLen_code, h, List.length_cons, ne_eq, Option.some.injEq]

/-- What an FV16 packet announces, by the value of its two length bytes (R65). -/
theorem packetLength_FV16_of_field {op : Byte} {len : Bytes} (h : len.length = 2) (data : Bytes) :
    Format.packetLength .FV16 (op :: (len ++ data)) = some (3 + beDec len) := by
  have hfield := fv16 (op := op) (rest := data) (beDec_lt_of_length h)
  rwa [be_beDec_of_length h] at hfield

/-- What an FR16 packet announces, by the value of its two count bytes (R65). -/
theorem packetLength_FR16_of_field {op : Byte} {count : Bytes} (h : count.length = 2) (data : Bytes) :
    Format.packetLength .FR16 (op :: (count ++ data)) = some (3 + Config.recLen * beDec count) := by
  have hfield := fr16 (op := op) (rest := data) (beDec_lt_of_length h)
  rwa [be_beDec_of_length h] at hfield

/-- An FV16 packet whose length field disagrees with its data is malformed. -/
theorem decode_FV16_malformed {o : Op} {len data : Bytes} (ho : o.format = .FV16) (h : len.length = 2)
    (hne : data.length ≠ beDec len) : decode (o.code :: (len ++ data)) = .malformed := by
  refine decode_malformed_of_announced (ho ▸ packetLength_FV16_of_field h data) ?_
  rw [List.length_append]
  omega

/-- An INVV packet whose count field disagrees with its data is malformed. -/
theorem decode_invv_malformed {count data : Bytes} (h : count.length = 2) (hne : data.length ≠ 36 * beDec count) :
    decode (Op.invv.code :: (count ++ data)) = .malformed := by
  refine decode_malformed_of_announced (packetLength_FR16_of_field h data) ?_
  rw [List.length_append, Config.recLen]
  omega

/-- LPB of at most 255 bytes is one append of the length byte and the bytes (R150, R151). -/
theorem exec_lpb_spec {bytes : Bytes} (h : bytes.length ≤ 255) (s : State) :
    AppendsOrOverflows (exec (.lpb bytes) s) s (lengthPrefixed bytes) :=
  exec_output_spec (i := .lpb bytes) rfl (if_neg (Nat.not_lt.mpr h)) s

/-- INVV of at most 255 records is one append of the count byte and the records (R150, R156). -/
theorem exec_invv_spec {records : List InvRecord} (h : records.length ≤ 255) (s : State) :
    AppendsOrOverflows (exec (.invv records) s) s (inventoryVector records) :=
  exec_output_spec (i := .invv records) rfl (if_neg (Nat.not_lt.mpr h)) s

/-- The count byte and the records in bits: each tag least significant byte first, each hash verbatim (R156, R157). -/
theorem inventoryVector_eq_wire (records : List InvRecord) :
    inventoryVector records =
      BitVec.ofNat 8 records.length :: records.flatMap fun r => wireLE 4 r.tag ++ r.hash :=
  congrArg (_ :: records.flatMap ·) (funext fun r => congrArg (· ++ r.hash) (le_toNat_eq_wireLE 4 r.tag))

/-- The packet in bits: the count and each tag are big-endian on the command port (R61, R63). -/
theorem encode_invv_eq_wire {records : List InvRecord} (h : records.length < 2 ^ 16) :
    encode (.invv records) = Op.invv.code :: (wireBE 2 (BitVec.ofNat 16 records.length) ++
      records.flatMap fun r => wireBE 4 r.tag ++ r.hash) := by
  have hrecord : encodeRecord = fun r => wireBE 4 r.tag ++ r.hash :=
    funext fun r => congrArg (· ++ r.hash) (be_toNat_eq_wireBE 4 r.tag)
  rw [encode, encodeFields, be_eq_wireBE_of_lt 2 h, hrecord, Instr.op]

/-- Settles O37: the packet by its length fitting in 16 bits, a length in range by the two outcomes of an append, a longer
one by the range check, the last clause by the length that the packet announces. -/
theorem lpbRule : Obligations.LpbRule := by
  refine ⟨fun bytes s hlen _ => ⟨?_, fun hmax => ?_, fun hmax => ?_, fun hlong => ?_⟩,
    fun _ _ => decode_FV16_malformed (o := .lpb) rfl⟩
  · exact congrArg (0x30#8 :: · ++ bytes) (be_eq_wireBE_of_lt 2 hlen)
  · rw [Nat.add_assoc, ← lengthPrefixed_length]
    exact (exec_lpb_spec hmax s).1
  · rw [Nat.add_assoc, ← lengthPrefixed_length]
    exact (exec_lpb_spec hmax s).2
  · exact exec_of_rangeFault (i := .lpb bytes) (if_pos hlong) s

/-- Settles O39, clause by clause as O37, with the packet and the appended bytes taken to the bits of the tags. -/
theorem invvRule : Obligations.InvvRule := by
  refine ⟨fun records s hcount hwf _ => ⟨encode_invv_eq_wire hcount, fun hmax => ?_, fun hmax => ?_, fun hmany => ?_⟩,
    fun _ _ => decode_invv_malformed⟩
  · rw [Nat.add_assoc, ← inventoryVector_length hwf, ← inventoryVector_eq_wire]
    exact (exec_invv_spec hmax s).1
  · rw [Nat.add_assoc, ← inventoryVector_length hwf]
    exact (exec_invv_spec hmax s).2
  · exact exec_of_rangeFault (i := .invv records) (if_pos hmany) s

/-- Records laid end to end have 36 bytes each, so byte j of record i is byte 36 i + j of all. -/
theorem inventoryRecords_getElem? {records : List InvRecord} {r : InvRecord} {i j : Nat}
    (hwf : ∀ q ∈ records, q.WellFormed) (hi : records[i]? = some r) (hj : j < Config.recLen) :
    (records.flatMap inventoryRecord)[Config.recLen * i + j]? = (inventoryRecord r)[j]? := by
  induction records generalizing i with
  | nil => cases hi
  | cons q records ih =>
    obtain ⟨hq, hrest⟩ := List.forall_mem_cons.mp hwf
    have hlen := inventoryRecord_length hq
    rw [List.flatMap_cons]
    cases i with
    | zero =>
      cases hi
      rw [Nat.mul_zero, Nat.zero_add, List.getElem?_append_left (hlen.symm ▸ hj)]
    | succ i =>
      have hoffset : Config.recLen * (i + 1) + j = (inventoryRecord q).length + (Config.recLen * i + j) := by
        rw [hlen, Nat.mul_succ]
        omega
      rw [hoffset, List.getElem?_append_right (Nat.le_add_right _ _), Nat.add_sub_cancel_left, ih hrest hi]

theorem wireLE_getElem? {w n k : Nat} (v : BitVec w) (h : k < n) : (wireLE n v)[k]? = some (v.extractLsb' (8 * k) 8) := by
  rw [wireLE, List.getElem?_map, List.getElem?_range h, Option.map_some]

/-- Bytes 0 to 3 of a record are its tag, least significant first (R157). -/
theorem inventoryRecord_tag (r : InvRecord) {k : Nat} (h : k < 4) :
    (inventoryRecord r)[k]? = some (r.tag.extractLsb' (8 * k) 8) := by
  rw [inventoryRecord, List.getElem?_append_left (by rwa [le_length]), le_toNat_eq_wireLE, wireLE_getElem? _ h]

/-- The bytes of a record from offset 4 on are its hash (R157). -/
theorem inventoryRecord_hash (r : InvRecord) (k : Nat) : (inventoryRecord r)[4 + k]? = r.hash[k]? := by
  rw [inventoryRecord, List.getElem?_append_right (by rw [le_length]; omega), le_length, Nat.add_sub_cancel_left]

/-- After an INVV that succeeds, byte j of record i stands 1 + 36 i + j bytes after the old end of PBUF (R157). -/
theorem readByte_inventory {records : List InvRecord} {r : InvRecord} {i j : Nat} (s : State)
    (hwf : ∀ q ∈ records, q.WellFormed) (hi : records[i]? = some r) (hj : j < 36) :
    (s.appended (inventoryVector records)).readByte (s.pbuf.length + 1 + 36 * i + j) = (inventoryRecord r)[j]? := by
  have haddr : s.pbuf.length + 1 + 36 * i + j = s.pbuf.length + (Config.recLen * i + j + 1) := by
    rw [Config.recLen]
    omega
  rw [haddr, readByte_appended_new, inventoryVector, List.getElem?_cons_succ, inventoryRecords_getElem? hwf hi hj]

/-- Settles O40: the INVV is the append of the count byte and the records, and each record is its tag and its hash. -/
theorem inventoryRecordLayout : Obligations.InventoryRecordLayout := by
  intro records s t i r hwf hmax hfits run hi
  rw [Nat.add_assoc, ← inventoryVector_length hwf] at hfits
  obtain rfl : s.appended (inventoryVector records) = t :=
    Host.Outcome.next.inj (((exec_invv_spec hmax s).1 hfits).symm.trans run)
  refine ⟨fun k hk => ?_, fun k hk => ?_⟩
  · rw [readByte_inventory s hwf hi (by omega), inventoryRecord_tag r hk]
  · rw [Nat.add_assoc _ 4 k, readByte_inventory s hwf hi (by omega), inventoryRecord_hash]

end Sys2Proof
end

section
/-! SUPPORT. The envelope (45_envelope.md): the two outcomes of FRAME, the frame in bits, and where each of its fields
stands. -/

namespace Sys2Proof

open Machine

/-- A number is written in n bytes as its residue modulo 256^n is. -/
theorem le_mod (n v : Nat) : le n (v % 256 ^ n) = le n v := by
  have h := le_leDec (le n v)
  rwa [le_length, leDec_le_mod] at h

/-- A number is written in n bytes as the word of that width is, whether or not it fits in it. -/
theorem le_eq_wireLE_ofNat {n w : Nat} (hw : 2 ^ w = 256 ^ n) (v : Nat) : le n v = wireLE n (BitVec.ofNat w v) := by
  rw [← le_toNat_eq_wireLE, BitVec.toNat_ofNat, hw, le_mod]

/-- The four checksum bytes on the wire are the first four of the double hash, in digest order (R133). -/
theorem le_checksum (p : Bytes) : le 4 (checksum p).toNat = (hash256 (hash256 p)).take 4 := by
  have h := le_leDec ((hash256 (hash256 p)).take 4)
  rwa [List.length_take, hash256_length, ← checksum_toNat] at h

/-- The frame in bits: magic, length and checksum least significant byte first (R190, R191). -/
theorem frameBytes_eq_wire (magic : BitVec 32) (name p : Bytes) :
    frameBytes magic name p =
      wireLE 4 magic ++ pad12 name ++ wireLE 4 (BitVec.ofNat 32 p.length) ++ wireLE 4 (checksum p) ++ p := by
  rw [frameBytes, le_toNat_eq_wireLE, le_toNat_eq_wireLE, le_eq_wireLE_ofNat (w := 32) rfl]

/-- FRAME of a name of at most 12 bytes succeeds, whatever is in PBUF (R190). -/
theorem exec_frame_of_le {name : Bytes} (h : name.length ≤ 12) (s : State) :
    exec (.frame name) s = .next (s.framed name) :=
  if_neg (Nat.not_lt.mpr h)

/-- The packet of FRAME: opcode, length byte, name (R61, R190). -/
theorem encode_frame (name : Bytes) :
    encode (.frame name) = Op.frame.code :: BitVec.ofNat 8 name.length :: name := rfl

/-- A FRAME packet whose length byte disagrees with its name is malformed (R67 b). -/
theorem decode_frame_malformed {len : Byte} {name : Bytes} (h : name.length ≠ len.toNat) :
    decode (Op.frame.code :: len :: name) = .malformed := by
  refine decode_malformed_of_announced (n := 2 + len.toNat) (Format.packetLength_FV8 _ (len :: name)) ?_
  rw [List.length_cons]
  omega

/-- Settles O47: the effect by the two outcomes of FRAME, with the frame taken to bits, the last clause by the length that
the packet announces. -/
theorem frameRule : Obligations.FrameRule := by
  refine ⟨fun name s _ _ => ⟨encode_frame name, fun hshort => ?_, fun hlong => ?_⟩, fun _ _ => decode_frame_malformed⟩
  · rw [exec_frame_of_le hshort, State.framed, frameBytes_eq_wire]
    rfl
  · exact exec_of_rangeFault (i := .frame name) (if_pos hlong) s

/-- Byte i + k is byte k of what follows the first i bytes. -/
theorem getElem?_append_of_length {s t : Bytes} {i : Nat} (h : s.length = i) (k : Nat) : (s ++ t)[i + k]? = t[k]? := by
  rw [List.getElem?_append_right (by omega), h, Nat.add_sub_cancel_left]

/-- Byte i + k is byte k of the field that follows the first i bytes. -/
theorem getElem?_field {s t u : Bytes} {i k : Nat} (hi : s.length = i) (hk : k < t.length) :
    (s ++ t ++ u)[i + k]? = t[k]? := by
  rw [List.append_assoc, getElem?_append_of_length hi, List.getElem?_append_left hk]

/-- The padded name is the name and then 00 bytes (R192). -/
theorem pad12_getElem?_name {name : Bytes} {k : Nat} (h : k < name.length) : (pad12 name)[k]? = name[k]? :=
  List.getElem?_append_left h

theorem pad12_getElem?_padding {name : Bytes} {k : Nat} (hname : name.length ≤ k) (hk : k < 12) :
    (pad12 name)[k]? = some 0x00#8 := by
  rw [pad12, List.getElem?_append_right hname, List.getElem?_replicate, if_pos (by rw [Config.nameLen]; omega)]

/-- The magic stands at 0 (R191). -/
theorem frameBytes_magic (magic : BitVec 32) (name p : Bytes) {k : Nat} (h : k < 4) :
    (frameBytes magic name p)[k]? = (le 4 magic.toNat)[k]? := by
  simp only [frameBytes, List.append_assoc]
  exact List.getElem?_append_left (by rwa [le_length])

/-- The padded name stands at 4 (R191). -/
theorem frameBytes_name (magic : BitVec 32) {name : Bytes} (hname : name.length ≤ 12) (p : Bytes) {k : Nat} (h : k < 12) :
    (frameBytes magic name p)[4 + k]? = (pad12 name)[k]? := by
  rw [frameBytes, List.append_assoc, List.append_assoc]
  exact getElem?_field (le_length _ _) (by rwa [pad12_length hname])

/-- The magic and the padded name take 16 bytes (R191). -/
theorem magic_name_length (magic : BitVec 32) {name : Bytes} (hname : name.length ≤ 12) :
    (le 4 magic.toNat ++ pad12 name).length = 16 := by
  rw [List.length_append, le_length, pad12_length hname]

/-- The length stands at 16 (R191). -/
theorem frameBytes_size (magic : BitVec 32) {name : Bytes} (hname : name.length ≤ 12) (p : Bytes) {k : Nat} (h : k < 4) :
    (frameBytes magic name p)[16 + k]? = (le 4 p.length)[k]? := by
  rw [frameBytes, List.append_assoc]
  exact getElem?_field (magic_name_length magic hname) (by rwa [le_length])

/-- The checksum stands at 20 (R191). -/
theorem frameBytes_checksum (magic : BitVec 32) {name : Bytes} (hname : name.length ≤ 12) (p : Bytes) {k : Nat}
    (h : k < 4) : (frameBytes magic name p)[20 + k]? = (le 4 (checksum p).toNat)[k]? :=
  getElem?_field (by rw [List.length_append, magic_name_length magic hname, le_length]) (by rwa [le_length])

/-- The payload stands from 24 on (R191). -/
theorem frameBytes_payload (magic : BitVec 32) {name : Bytes} (hname : name.length ≤ 12) (p : Bytes) (k : Nat) :
    (frameBytes magic name p)[24 + k]? = p[k]? :=
  getElem?_append_of_length
    (by rw [List.length_append, List.length_append, magic_name_length magic hname, le_length, le_length]) k

/-- Settles O48, field by field: the place of each field, then its bytes in bits or in the digest. -/
theorem frameLayout : Obligations.FrameLayout := by
  refine fun magic name p hname => ⟨frameBytes_length magic hname p, fun k hk => ?magic, fun k hk => ?name,
    fun k hpad hk => ?padding, fun k hk => ?size, fun k hk => ?checksum, frameBytes_payload magic hname p⟩
  case magic => rw [frameBytes_magic magic name p hk, le_toNat_eq_wireLE, wireLE_getElem? _ hk]
  case name => rw [frameBytes_name magic hname p (by omega), pad12_getElem?_name hk]
  case padding => rw [frameBytes_name magic hname p hk, pad12_getElem?_padding hpad hk]
  case size => rw [frameBytes_size magic hname p hk, le_eq_wireLE_ofNat (w := 32) rfl, wireLE_getElem? _ hk]
  case checksum => rw [frameBytes_checksum magic hname p hk, le_checksum, List.getElem?_take_of_lt hk]

/-- Settles O50: the first FRAME empties PBUF and keeps MAGIC, so the second frames the empty payload. -/
theorem secondFrameHasEmptyPayload : Obligations.SecondFrameHasEmptyPayload := by
  intro first second s hfirst hsecond herr
  refine ⟨s.framed first, (s.framed first).framed second, exec_frame_of_le hfirst s, exec_frame_of_le hsecond _,
    framed_pbuf s first, framed_magic s first, herr, ?_, frameBytes_length s.magic hsecond []⟩
  rw [framed_txq, framed_txq, framed_magic, framed_pbuf, List.append_assoc, List.singleton_append]

end Sys2Proof
end

section
/-! SUPPORT. The control commands CLR and SETMAGIC (46_control.md): their effect and packets, and a packet's whole step from
its body. -/

namespace Sys2Proof

open Machine

/-- A step on a packet is the command body without that packet pending, then pc + 1 (R8). -/
theorem step_packet {s t : State} {pkt : Bytes} {rest : List PortEvent} (h : s.inputs = .packet pkt :: rest)
    (hbody : commandBody pkt (s.withInputs rest) = .next t) : step s = .next t.advancePc := by
  rw [step_of_event h, serve, commandCycle, hbody, thenDo]

theorem exec_clr (s : State) : exec .clr s = .next s.cleared := rfl

theorem exec_setmagic (m : BitVec 32) (s : State) : exec (.setmagic m) s = .next (s.remagicked m) := rfl

/-- The packet [01] decodes to CLR: CLR has no operands, so its packet is its opcode alone (R210). -/
theorem decode_clearPacket : decode clearPacket = .command .clr := decode_encode (i := .clr) rfl

/-- A CLR opcode with anything after it is malformed (R67 b): CLR announces one byte, whatever follows. -/
theorem decode_clr_malformed {rest : Bytes} (h : rest ≠ []) : decode (Op.clr.code :: rest) = .malformed := by
  refine decode_malformed_of_announced (n := 1) rfl ?_
  have hpos := List.length_pos_iff.mpr h
  omega

/-- The packet [01] clears in every state: through the latch's own test where a fault is latched, by decoding to CLR where
none is (R210). -/
theorem commandBody_clearPacket (s : State) : commandBody clearPacket s = .next s.cleared := by
  by_cases hfree : s.err = none
  · rw [commandBody_command hfree decode_clearPacket, exec_clr]
  · exact commandBody_latched_clear hfree

/-- Settles O52: the packets by what CLR announces, the steps by the body of the cycle, on [01] whether or not a fault is
latched, and on any other packet where one is. -/
theorem clrRule : Obligations.ClrRule :=
  ⟨rfl, decode_clearPacket, decode_clr_malformed (List.cons_ne_nil _ _), exec_clr,
    fun _ _ hnext => step_packet hnext (commandBody_clearPacket _),
    fun _ _ _ hnext hheld hpkt => step_packet hnext (commandBody_latched hheld hpkt)⟩

/-- Settles O53: the packet by the bytes of a word in bits, the effect by `exec_setmagic`. -/
theorem setmagicRule : Obligations.SetmagicRule := fun m s _ =>
  ⟨congrArg (0x02#8 :: ·) (be_toNat_eq_wireBE 4 m), exec_setmagic m s⟩

end Sys2Proof
end

section
/-! SUPPORT. The fault latch (60_exceptions.md): what a fault leaves of the state it is raised in, and what a step does to a
code that is latched. -/

namespace Sys2Proof.Machine

/-- A command that ends with a fault latched, where none was, has entered that fault and done nothing else (R224). -/
theorem ExecCase.eq_faulted {i : Instr} {s t : State} {c : FaultCode} (how : ExecCase i s t) (free : s.err = none)
    (herr : t.err = some c) : t = s.faulted c := by
  cases how with
  | faulted d => rw [Option.some.inj herr]
  | appended bytes _ => cases free.symm.trans herr
  | framed name _ _ => cases free.symm.trans herr
  | cleared _ => cases herr
  | remagicked m _ => cases free.symm.trans herr

/-- The same for the body of a command cycle, where the packet need not decode. -/
theorem BodyCase.eq_faulted {pkt : Bytes} {s t : State} {c : FaultCode} (how : BodyCase pkt s t) (free : s.err = none)
    (herr : t.err = some c) : t = s.faulted c := by
  cases how with
  | latched held _ => exact absurd free held
  | released held _ => exact absurd free held
  | illegal _ _ => rw [Option.some.inj herr]
  | malformed _ _ => rw [Option.some.inj herr]
  | executed i t _ _ _ how => exact how.eq_faulted free herr

/-- A step on a packet is one of the cases of the command body, without that packet pending, then pc + 1 (R8). -/
theorem step_packet_bodyCase {s : State} {pkt : Bytes} {rest : List PortEvent} (h : s.inputs = .packet pkt :: rest) :
    ∃ t, step s = .next t.advancePc ∧ BodyCase pkt (s.withInputs rest) t := by
  obtain ⟨t, hbody, how⟩ := commandBody_bodyCase pkt (s.withInputs rest)
  exact ⟨t, step_packet h hbody, how⟩

/-- Settles O9: the body of the cycle has entered the fault, and the step adds pc + 1. -/
theorem faultEntryIsPrecise : Obligations.FaultEntryIsPrecise := by
  intro s t pkt rest c hnext hfree hstep herr
  obtain ⟨u, hu, how⟩ := step_packet_bodyCase hnext
  obtain rfl : u.advancePc = t := Host.Outcome.next.inj (hu.symm.trans hstep)
  rw [how.eq_faulted hfree herr]
  rfl

/-- The body of a command cycle keeps a latched code, or ends it on the packet [01] (R226). -/
theorem BodyCase.err_of_latched {pkt : Bytes} {s t : State} {c : FaultCode} (how : BodyCase pkt s t)
    (held : s.err = some c) : t.err = some c ∨ t.err = none ∧ pkt = clearPacket := by
  cases how with
  | latched _ _ => exact .inl held
  | released _ isClear => exact .inr ⟨rfl, isClear⟩
  | illegal free _ => cases free.symm.trans held
  | malformed free _ => cases free.symm.trans held
  | executed _ _ free _ _ _ => cases free.symm.trans held

/-- A step keeps a latched code, or ends it on the packet [01] or the reset input (R226, R227). -/
theorem step_err_of_latched {s t : State} {c : FaultCode} (held : s.err = some c) (hstep : step s = .next t) :
    t.err = some c ∨
      t.err = none ∧ (s.inputs.head? = some (.packet clearPacket) ∨ s.inputs.head? = some .resetInput) := by
  cases step_cases hstep with
  | idle _ => exact .inl held
  | packet pkt rest u next how =>
    refine (how.err_of_latched held).imp_right fun ⟨hfree, hclear⟩ => ⟨hfree, .inl ?_⟩
    rw [next, hclear, List.head?_cons]
  | reset rest next => exact .inr ⟨rfl, .inr (by rw [next, List.head?_cons])⟩
  | take rest _ =>
    obtain ⟨_, _, _, same, _⟩ := transportTake_other (s.withInputs rest)
    exact .inl (same.trans held)

/-- Taking a frame moves the head of TXQ, if there is one, to the frames sent (R267 of 70_reset_and_hazards.md). -/
theorem transportTake_eq (s : State) :
    transportTake s = { s with txq := s.txq.drop 1, sent := s.sent ++ s.txq.take 1 } := by
  obtain ⟨cfg, pbuf, txq, magic, err, pc, inputs, responses, sent⟩ := s
  cases txq with
  | nil => simp [transportTake]
  | cons f rest => rfl

/-- Settles O10: the refused packet by the body of the cycle, the transport by what taking a frame does, the end of the
latch by `step_err_of_latched`. -/
theorem latchedBlockRefuses : Obligations.LatchedBlockRefuses := by
  refine fun s c held => ⟨fun pkt rest hnext hpkt => ?_, fun rest hnext => ?_, fun t hstep hleft => ?_⟩
  · exact step_packet hnext (commandBody_latched (Option.ne_none_iff_exists'.mpr ⟨c, held⟩) hpkt)
  · rw [step_of_event hnext, serve, transportTake_eq]
    rfl
  · exact ((step_err_of_latched held hstep).resolve_left hleft).2

/-- Settles O11: CLR by the packet [01] clearing in every state, reset by its values, the code by `step_err_of_latched`. -/
theorem latchIsLeftByClrOrReset : Obligations.LatchIsLeftByClrOrReset := by
  refine fun s c held => ⟨fun rest hnext => ?_, fun rest hnext => ?_, fun t d hstep herr => ?_⟩
  · exact step_packet hnext (commandBody_clearPacket _)
  · exact ⟨_, step_of_event hnext, rfl, rfl, rfl, rfl⟩
  · rcases step_err_of_latched held hstep with hkept | ⟨hfree, _⟩
    · exact Option.some.inj (herr.symm.trans hkept)
    · cases hfree.symm.trans herr

end Sys2Proof.Machine
end

section
/-! SUPPORT. The one response of a packet, in the order of R230 (60_exceptions.md): each command responds what its range
check and then the room for its output give. -/

namespace Sys2Proof.Machine

theorem expectedResponse_of_rangeFault {i : Instr} {c : FaultCode} (h : i.rangeFault = some c) (s : State) :
    i.expectedResponse s = .fault c := by
  rw [Instr.expectedResponse, h]

/-- In range, an appending command is to respond by the room for its output (R41). -/
theorem expectedResponse_of_output {i : Instr} {bytes : Bytes} (hwf : i.WellFormed) (hr : i.rangeFault = none)
    (ho : i.output = some bytes) (s : State) :
    i.expectedResponse s = if s.cap < s.pbuf.length + bytes.length then .fault .overflow else .ok := by
  simp only [Instr.expectedResponse, hr, ← Instr.output_length hwf, ho, Option.map_some]

theorem expectedResponse_of_no_output {i : Instr} (hwf : i.WellFormed) (hr : i.rangeFault = none)
    (ho : i.output = none) (s : State) : i.expectedResponse s = .ok := by
  simp only [Instr.expectedResponse, hr, ← Instr.output_length hwf, ho, Option.map_none]

/-- A command with no output whose operands are in range responds OK. -/
theorem exec_responses_of_no_output {i : Instr} {s t : State} (hr : i.rangeFault = none) (ho : i.output = none)
    (run : exec i s = .next t) : t.responses = s.responses ++ [.ok] := by
  cases i with
  | clr =>
    cases run
    rfl
  | setmagic m =>
    cases run
    rfl
  | frame name =>
    have hshort : name.length ≤ 12 := Nat.not_lt.mp fun hlong => nomatch (if_pos hlong).symm.trans hr
    rw [exec_frame_of_le hshort] at run
    cases run
    rfl
  | _ => cases ho

/-- A well-formed command responds by its range check, then by the room for its output. -/
theorem exec_responses {i : Instr} {s t : State} (hwf : i.WellFormed) (run : exec i s = .next t) :
    t.responses = s.responses ++ [i.expectedResponse s] := by
  cases hr : i.rangeFault with
  | some c =>
    rw [exec_of_rangeFault hr] at run
    cases run
    rw [expectedResponse_of_rangeFault hr, faulted_responses]
  | none =>
    cases ho : i.output with
    | none => rw [expectedResponse_of_no_output hwf hr ho, exec_responses_of_no_output hr ho run]
    | some bytes =>
      rw [exec_of_output ho hr] at run
      rcases append_cases bytes s with ⟨hfits, e⟩ | ⟨hover, e⟩
      · rw [e] at run
        cases run
        rw [expectedResponse_of_output hwf hr ho, if_neg (Nat.not_lt.mpr hfits), appended_responses]
      · rw [e] at run
        cases run
        rw [expectedResponse_of_output hwf hr ho, if_pos hover, faulted_responses]

/-- The body of a command cycle responds the first condition of R230 that applies; a packet that decodes carries a
well-formed command. -/
theorem BodyCase.responses {pkt : Bytes} {s t : State} (how : BodyCase pkt s t) :
    t.responses = s.responses ++ [expectedResponse pkt s] := by
  cases how with
  | latched held notClear =>
    have hresp : expectedResponse pkt s = .latched := (if_pos held).trans (if_neg notClear)
    rw [hresp, respond_responses]
  | released held isClear =>
    have hresp : expectedResponse pkt s = .ok := (if_pos held).trans (if_pos isClear)
    rw [hresp, cleared_responses]
  | illegal free verdict => simp [expectedResponse, free, verdict]
  | malformed free verdict => simp [expectedResponse, free, verdict]
  | executed i t free verdict run _ =>
    obtain ⟨hwf, _⟩ := encode_of_decode verdict
    simp [expectedResponse, free, verdict, exec_responses hwf run]

/-- Settles O15: the response is the body's, and neither the packet's leaving the port nor pc + 1 changes what is
expected. -/
theorem responseFollowsPriority : Obligations.ResponseFollowsPriority := by
  intro s pkt rest hnext
  obtain ⟨t, hstep, how⟩ := step_packet_bodyCase hnext
  exact ⟨_, hstep, how.responses⟩

end Sys2Proof.Machine
end

section
/-! SUPPORT. Whole programs of packets (30_encoding.md): writing and reading are inverse, a concatenation of packets is cut
into them (R65), and what the assembler accepts fits packets (R68). -/

namespace Sys2Proof

open Machine

/-- Settles O1, by reading back the fields of the packet. -/
theorem decodeOfEncodeIsIdentity : Obligations.DecodeOfEncodeIsIdentity := fun _ => decode_encode

/-- Settles O2, by writing again what the fields of the packet hold. -/
theorem encodeOfDecodeIsIdentity : Obligations.EncodeOfDecodeIsIdentity := fun _ _ => encode_of_decode

/-- A stream that begins with a command's packet is cut behind it. -/
theorem cut_encode_append {i : Instr} (h : i.WellFormed) (rest : Bytes) :
    cut (encode i ++ rest) = (cut rest).map (encode i :: ·) := by
  rw [cut_of_pktLen (pktLen_append (pktLen_encode h)) (by rw [List.length_append]; omega), List.drop_left, List.take_left]

/-- Settles O5, by induction on the list of commands: each packet announces its own length, so it is cut off first. -/
theorem cutOfEncodedCommands : Obligations.CutOfEncodedCommands := by
  intro commands h
  induction commands with
  | nil => rfl
  | cons i rest ih =>
    obtain ⟨hi, hrest⟩ := List.forall_mem_cons.mp h
    rw [List.flatMap_cons, cut_encode_append hi, ih hrest, Option.map_some, List.map_cons]

/-- Settles O6, by running the decoder on the nine packets. -/
theorem specExamplePacketsDecode : Obligations.SpecExamplePacketsDecode := by
  unfold Obligations.SpecExamplePacketsDecode
  decide

end Sys2Proof

namespace Sys2Proof.Machine.Asm

/-- What a list is mapped to, element by element and without a failure, comes from its elements. -/
theorem exists_of_mem_mapM {α β : Type} {f : α → Option β} {l : List α} {m : List β} (h : l.mapM f = some m) {b : β}
    (hb : b ∈ m) : ∃ a ∈ l, f a = some b := by
  induction l generalizing m with
  | nil =>
    cases h
    cases hb
  | cons a l ih =>
    rw [List.mapM_cons] at h
    obtain ⟨c, hc, hrest⟩ := Option.bind_eq_some_iff.mp h
    obtain ⟨cs, hcs, hm⟩ := Option.bind_eq_some_iff.mp hrest
    cases hm
    rcases List.mem_cons.mp hb with rfl | hb
    · exact ⟨a, List.mem_cons_self, hc⟩
    · obtain ⟨d, hd, hdb⟩ := ih hcs hb
      exact ⟨d, List.mem_cons_of_mem a hd, hdb⟩

/-- The assembler refuses a line with an operand that no packet can carry (R68). -/
theorem commandLine_wellFormed {ts : List Token} {commands : List Instr} (h : commandLine ts = some commands) :
    ∀ i ∈ commands, i.WellFormed := by
  unfold commandLine at h
  split at h
  · cases h
    simp
  · obtain ⟨accepted, _, hchecked⟩ := Option.bind_eq_some_iff.mp h
    obtain ⟨hall, hsame⟩ := Option.ite_none_right_eq_some.mp hchecked
    cases hsame
    exact List.all_eq_true.mp hall
  · cases h

/-- Every command of a program was accepted in a line of it. -/
theorem program_wellFormed {text : List Char} {commands : List Instr} (h : program text = some commands) :
    ∀ i ∈ commands, i.WellFormed := by
  obtain ⟨lineTokens, _, hjoined⟩ := Option.bind_eq_some_iff.mp h
  obtain ⟨perLine, hlines, rfl⟩ := Option.map_eq_some_iff.mp hjoined
  intro i hi
  obtain ⟨line, hline, hmem⟩ := List.mem_flatten.mp hi
  obtain ⟨ts, _, hts⟩ := exists_of_mem_mapM hlines hline
  exact commandLine_wellFormed hts i hmem

/-- Settles O58: each command is of an accepted line, and the packet of a well-formed command decodes to it. -/
theorem assembledCommandsFitPackets : Obligations.AssembledCommandsFitPackets := fun _ _ h i hi =>
  have hwf := program_wellFormed h i hi
  ⟨hwf, decode_encode hwf⟩

end Sys2Proof.Machine.Asm
end

section
/-! SUPPORT. One step (R8 of 00_scope.md; R33 of 10_state.md; R260, R267 of 70_reset_and_hazards.md): what each port event
does to the whole state, what every step leaves as it was, and the status outputs. -/

namespace Sys2Proof.Machine

/-- Settles O12, by the cases of `StepCase`. -/
theorem everyStepGoesOn : Obligations.EveryStepGoesOn := fun s =>
  let ⟨t, h, _⟩ := step_stepCase s
  ⟨t, h⟩

/-- Settles O25, by `step_of_idle`. -/
theorem idleBlockKeepsState : Obligations.IdleBlockKeepsState := fun _ => step_of_idle

/-- Settles O7: with no fault latched the body of the cycle is the command that was decoded. -/
theorem stepRunsDecodedCommand : Obligations.StepRunsDecodedCommand := by
  intro s pkt rest i hnext hfree hdec
  rw [step_of_event hnext, serve, commandCycle, commandBody_command (s := s.withInputs rest) hfree hdec]
  rfl

/-- Settles O8, by the body of the cycle on a packet that does not decode. -/
theorem undecodedPacketsFault : Obligations.UndecodedPacketsFault := fun s _ rest hnext hfree =>
  ⟨fun hdec => step_packet hnext (commandBody_illegal (s := s.withInputs rest) hfree hdec),
    fun hdec => step_packet hnext (commandBody_malformed (s := s.withInputs rest) hfree hdec)⟩

/-- Settles O23, by the values that reset writes. -/
theorem resetValues : Obligations.ResetValues :=
  ⟨fun _ _ hnext => ⟨_, step_of_event hnext, rfl, rfl, rfl, rfl, rfl, rfl, rfl, rfl⟩,
    fun _ => ⟨rfl, rfl, rfl, rfl, rfl, rfl⟩⟩

theorem transportTake_of_cons {s : State} {f : Bytes} {more : List Bytes} (h : s.txq = f :: more) :
    transportTake s = { s with txq := more, sent := s.sent ++ [f] } := by
  rw [transportTake, h]

theorem transportTake_of_nil {s : State} (h : s.txq = []) : transportTake s = s := by
  rw [transportTake, h]

/-- Settles O24, by what taking a frame does to TXQ. -/
theorem transportTakesHeadFrame : Obligations.TransportTakesHeadFrame := by
  refine fun s rest hnext => ⟨fun f more htxq => ?_, fun htxq => ?_⟩
  · rw [step_of_event hnext, serve, transportTake_of_cons (s := s.withInputs rest) htxq]
    rfl
  · rw [step_of_event hnext, serve, transportTake_of_nil (s := s.withInputs rest) htxq]
    rfl

/-- PBUF_CAP is below 2^32, so PLEN is the length of a PBUF that fits (R26). -/
theorem plen_toNat {s : State} (h : s.pbuf.length ≤ s.cap) : s.plen.toNat = s.pbuf.length := by
  rw [State.plen, BitVec.toNat_ofNat, Nat.mod_eq_of_lt (h.trans_lt s.cfg.pbufCap.isLt)]

/-- Settles O26, by the bound on PBUF_CAP. -/
theorem plenIsPayloadLength : Obligations.PlenIsPayloadLength := ⟨fun _ h => ⟨plen_toNat h, rfl⟩, fun _ => rfl⟩

theorem errOut_of_err {s : State} {c : FaultCode} (h : s.err = some c) : s.errOut = c.code := by
  rw [State.errOut, h]

theorem errOut_of_free {s : State} (h : s.err = none) : s.errOut = 0x00#8 := by
  rw [State.errOut, h]

/-- A code is one of 01 to 06 (R222). -/
theorem FaultCode.code_mem (c : FaultCode) : c.code ∈ [0x01#8, 0x02#8, 0x03#8, 0x04#8, 0x05#8, 0x06#8] := by
  cases c <;> decide

/-- The seven legal values of ERR (R25). -/
def legalErr : Bytes := [0x00#8, 0x01#8, 0x02#8, 0x03#8, 0x04#8, 0x05#8, 0x06#8]

/-- ERR reads as a legal value in every state. -/
theorem errOut_mem (s : State) : s.errOut ∈ legalErr := by
  cases h : s.err with
  | none => exact errOut_of_free h ▸ List.mem_cons_self
  | some c => exact errOut_of_err h ▸ List.mem_cons_of_mem _ c.code_mem

/-- R32 (c) holds of every state. -/
theorem errOut_le (s : State) : s.errOut.toNat ≤ 6 :=
  have hle : ∀ b ∈ legalErr, b.toNat ≤ 6 := by decide
  hle _ (errOut_mem s)

/-- Settles O16: the table by its definition, the values of ERR by the codes being 01 to 06. -/
theorem faultCodeTable : Obligations.FaultCodeTable := by
  refine ⟨rfl, rfl, rfl, rfl, rfl, rfl, rfl, rfl, fun _ => rfl, fun _ => errOut_of_free, fun s c h => ?_⟩
  rw [errOut_of_err h]
  exact ⟨rfl, by cases c <;> decide, by cases c <;> decide⟩

theorem ExecCase.cfg_eq {i : Instr} {s t : State} (h : ExecCase i s t) : t.cfg = s.cfg := by
  cases h <;> rfl

theorem BodyCase.cfg_eq {pkt : Bytes} {s t : State} (h : BodyCase pkt s t) : t.cfg = s.cfg := by
  cases h with
  | executed i t _ _ _ how => exact how.cfg_eq
  | latched _ _ => rfl
  | released _ _ => rfl
  | illegal _ _ => rfl
  | malformed _ _ => rfl

/-- Settles O20, by the cases of `StepCase`. -/
theorem parametersNeverChange : Obligations.ParametersNeverChange := by
  intro s t hstep
  cases step_cases hstep with
  | idle _ => rfl
  | packet pkt rest u _ how => exact how.cfg_eq
  | reset rest _ => rfl
  | take rest _ =>
    obtain ⟨same, _⟩ := transportTake_other (s.withInputs rest)
    exact same

/-- What the response `r` says of the step from `s`, without its packet pending, to `t` (R221 of 60_exceptions.md). -/
structure Answers (r : Response) (s t : State) : Prop where
  responses : t.responses = s.responses ++ [r]
  ok : r = .ok → t.err = none
  fault : ∀ c, r = .fault c → t.err = some c ∧ t.pbuf = [] ∧ t.txq = s.txq ∧ t.magic = s.magic
  latched : r = .latched → t = s.respond .latched

theorem answers_ok {s t : State} (h : t.responses = s.responses ++ [.ok]) (free : t.err = none) : Answers .ok s t :=
  ⟨h, fun _ => free, nofun, nofun⟩

theorem answers_faulted (c : FaultCode) (s : State) : Answers (.fault c) s (s.faulted c) where
  responses := rfl
  ok := nofun
  fault d h := by cases h; exact ⟨rfl, rfl, rfl, rfl⟩
  latched := nofun

theorem answers_latched (s : State) : Answers .latched s (s.respond .latched) := ⟨rfl, nofun, nofun, fun _ => rfl⟩

/-- Where no fault was latched a command responds OK, and leaves none, or the code of the fault it enters. -/
theorem ExecCase.answers {i : Instr} {s t : State} (how : ExecCase i s t) (free : s.err = none) : ∃ r, Answers r s t := by
  cases how with
  | faulted c => exact ⟨_, answers_faulted c s⟩
  | appended bytes _ => exact ⟨_, answers_ok rfl free⟩
  | framed name _ _ => exact ⟨_, answers_ok rfl free⟩
  | cleared _ => exact ⟨_, answers_ok rfl rfl⟩
  | remagicked m _ => exact ⟨_, answers_ok rfl free⟩

theorem BodyCase.answers {pkt : Bytes} {s t : State} (how : BodyCase pkt s t) : ∃ r, Answers r s t := by
  cases how with
  | latched _ _ => exact ⟨_, answers_latched s⟩
  | released _ _ => exact ⟨_, answers_ok rfl rfl⟩
  | illegal _ _ => exact ⟨_, answers_faulted _ s⟩
  | malformed _ _ => exact ⟨_, answers_faulted _ s⟩
  | executed i t free _ _ how => exact how.answers free

/-- Settles O14: a packet by what the body of its cycle answers, the transport by what taking a frame leaves. -/
theorem oneResponsePerPacket : Obligations.OneResponsePerPacket := by
  refine fun s t hstep => ⟨fun pkt rest hnext => ?_, fun hhead => ?_⟩
  · obtain ⟨u, hu, how⟩ := step_packet_bodyCase hnext
    obtain rfl : u.advancePc = t := Host.Outcome.next.inj (hu.symm.trans hstep)
    obtain ⟨r, hresponses, hok, hfault, hlatched⟩ := how.answers
    exact ⟨r, hresponses, hok, hfault, fun hr => congrArg State.advancePc (hlatched hr)⟩
  · cases step_cases hstep with
    | idle noEvent => rfl
    | packet pkt rest u next _ => simp [next] at hhead
    | reset rest next => simp [next] at hhead
    | take rest _ =>
      obtain ⟨_, _, _, _, _, _, same⟩ := transportTake_other (s.withInputs rest)
      exact same

end Sys2Proof.Machine
end

section
/-! SUPPORT. The invariants of every reachable state (R32 of 10_state.md): which frames are emitted, that each of them is
consistent, and that every step keeps the rest. -/

namespace Sys2Proof.Machine

/-- What a command does to the frames emitted: nothing, or FRAME adds the frame of MAGIC, its name and PBUF (R190). -/
theorem ExecCase.emitted {i : Instr} {s t : State} (how : ExecCase i s t) :
    t.emitted = s.emitted ∨
      ∃ name, i = .frame name ∧ name.length ≤ 12 ∧ t.emitted = s.emitted ++ [frameBytes s.magic name s.pbuf] := by
  cases how with
  | faulted c => exact .inl rfl
  | appended bytes _ => exact .inl rfl
  | framed name is short => exact .inr ⟨name, is, short, (List.append_assoc _ _ _).symm⟩
  | cleared _ => exact .inl rfl
  | remagicked m _ => exact .inl rfl

/-- The body of a command cycle emits only for the packet of a FRAME, and only where no fault is latched. -/
theorem BodyCase.emitted {pkt : Bytes} {s t : State} (how : BodyCase pkt s t) :
    t.emitted = s.emitted ∨
      ∃ name, name.length ≤ 12 ∧ s.err = none ∧ pkt = encode (.frame name) ∧
        t.emitted = s.emitted ++ [frameBytes s.magic name s.pbuf] := by
  cases how with
  | latched _ _ => exact .inl rfl
  | released _ _ => exact .inl rfl
  | illegal _ _ => exact .inl rfl
  | malformed _ _ => exact .inl rfl
  | executed i t free verdict _ how =>
    refine how.emitted.imp_right fun ⟨name, is, short, h⟩ => ⟨name, short, free, ?_, h⟩
    rw [← is, (encode_of_decode verdict).2]

/-- Settles O21, by the cases of `StepCase`. -/
theorem emittedFramesStand : Obligations.EmittedFramesStand := by
  intro s t hstep hreset
  cases step_cases hstep with
  | idle _ => exact .inl rfl
  | packet pkt rest u next how =>
    refine how.emitted.imp_right fun ⟨name, short, free, hpkt, h⟩ => ⟨name, short, free, ?_, h⟩
    rw [next, hpkt, List.head?_cons]
  | reset rest next => simp [next] at hreset
  | take rest _ => exact .inl (transportTake_emitted _)

/-- The length field of a frame (R191). -/
theorem slice_frameBytes_size (magic : BitVec 32) {name : Bytes} (h : name.length ≤ 12) (p : Bytes) :
    slice (frameBytes magic name p) 16 20 = le 4 p.length := by
  rw [frameBytes, List.append_assoc, List.append_assoc]
  exact slice_append (magic_name_length magic h) (by rw [le_length])

/-- The checksum field of a frame (R191). -/
theorem slice_frameBytes_checksum (magic : BitVec 32) {name : Bytes} (h : name.length ≤ 12) (p : Bytes) :
    slice (frameBytes magic name p) 20 24 = le 4 (checksum p).toNat := by
  rw [frameBytes, List.append_assoc]
  exact slice_append (by rw [List.length_append, magic_name_length magic h, le_length]) (by rw [le_length])

/-- The payload of a frame (R191). -/
theorem drop_frameBytes (magic : BitVec 32) {name : Bytes} (h : name.length ≤ 12) (p : Bytes) :
    (frameBytes magic name p).drop 24 = p :=
  List.drop_left' (by rw [List.length_append, List.length_append, magic_name_length magic h, le_length, le_length])

/-- The length field of a frame reads as the length of its payload, where that fits in its four bytes (R195). -/
theorem frameBytes_size_reads (magic : BitVec 32) {name p : Bytes} (h : name.length ≤ 12) (hp : p.length < 2 ^ 32) :
    leDec (slice (frameBytes magic name p) 16 20) = (frameBytes magic name p).length - 24 := by
  rw [slice_frameBytes_size magic h, leDec_le (n := 4) hp, frameBytes_length magic h, Nat.add_sub_cancel_left]

/-- A frame is consistent by construction, where its payload's length fits in its four bytes (R32 (d), R195). -/
theorem frameBytes_consistent (magic : BitVec 32) {name p : Bytes} (h : name.length ≤ 12) (hp : p.length < 2 ^ 32) :
    FrameConsistent (frameBytes magic name p) := by
  refine ⟨?_, frameBytes_size_reads magic h hp, ?_⟩
  · rw [frameBytes_length magic h]
    exact Nat.le_add_right 24 _
  · rw [slice_frameBytes_checksum magic h, drop_frameBytes magic h, le_checksum]

/-- PBUF_CAP is below 2^32 (R6), so the length of a PBUF that fits can be written in four bytes. -/
theorem length_lt_of_fits {s : State} (h : Memory.wf s.pbuf s.cap = true) : s.pbuf.length < 2 ^ 32 :=
  (of_decide_eq_true h : s.pbuf.length ≤ s.cap).trans_lt s.cfg.pbufCap.isLt

/-- Settles O49: FRAME emits the frame of PBUF, whose fields are read back. -/
theorem emittedFrameIsConsistent : Obligations.EmittedFrameIsConsistent := by
  intro name s hname hfits
  refine ⟨s.framed name, frameBytes s.magic name s.pbuf, exec_frame_of_le hname s, rfl, drop_frameBytes _ hname _,
    frameBytes_size_reads _ hname (hfits.trans_lt s.cfg.pbufCap.isLt), ?_⟩
  rw [slice_frameBytes_checksum _ hname, drop_frameBytes _ hname, leDec_le (n := 4) (checksum s.pbuf).isLt]

/-- R32 (a): what is put in PBUF fits. -/
theorem ExecCase.pbuf_fits {i : Instr} {s t : State} (how : ExecCase i s t) (h : Memory.wf s.pbuf s.cap = true) :
    Memory.wf t.pbuf t.cap = true := by
  cases how with
  | faulted c => exact raiseFault_wf rfl
  | appended bytes fits => exact append_wf (append_of_fits fits)
  | framed name _ _ => rfl
  | cleared _ => exact clearFault_wf s
  | remagicked m _ => exact h

theorem BodyCase.pbuf_fits {pkt : Bytes} {s t : State} (how : BodyCase pkt s t) (h : Memory.wf s.pbuf s.cap = true) :
    Memory.wf t.pbuf t.cap = true := by
  cases how with
  | latched _ _ => exact h
  | released _ _ => exact clearFault_wf s
  | illegal _ _ => exact raiseFault_wf rfl
  | malformed _ _ => exact raiseFault_wf rfl
  | executed i t _ _ _ how => exact how.pbuf_fits h

/-- R32 (b): a fault empties PBUF as it latches, and a latched block leaves it empty. -/
theorem BodyCase.latched_empty {pkt : Bytes} {s t : State} (how : BodyCase pkt s t) (h : s.err ≠ none → s.pbuf = [])
    (herr : t.err ≠ none) : t.pbuf = [] := by
  by_cases free : s.err = none
  · obtain ⟨c, hc⟩ := Option.ne_none_iff_exists'.mp herr
    rw [how.eq_faulted free hc, faulted_pbuf]
  · cases how with
    | latched _ _ => exact h free
    | released _ _ => rfl
    | illegal _ _ => rfl
    | malformed _ _ => rfl
    | executed _ _ unlatched _ _ _ => exact absurd unlatched free

theorem BodyCase.frames_consistent {pkt : Bytes} {s t : State} (how : BodyCase pkt s t)
    (hfits : Memory.wf s.pbuf s.cap = true) (h : ∀ f ∈ s.emitted, FrameConsistent f) :
    ∀ f ∈ t.emitted, FrameConsistent f := by
  rcases how.emitted with same | ⟨name, short, _, _, added⟩
  · exact same ▸ h
  · rw [added, List.forall_mem_append, List.forall_mem_singleton]
    exact ⟨h, frameBytes_consistent s.magic short (length_lt_of_fits hfits)⟩

/-- Settles O18: after reset everything that the invariants speak of is empty. -/
theorem invariantHoldsAfterReset : Obligations.InvariantHoldsAfterReset := fun cfg => {
  pbuf_fits := resetBlock_wf (State.resetOf cfg)
  latched_empty := fun _ => rfl
  err_legal := errOut_le _
  frames_consistent := by simp [State.emitted]
  one_response_each := rfl }

/-- One command cycle keeps the invariants: one response and one packet more. -/
theorem BodyCase.inv {pkt : Bytes} {s t : State} (how : BodyCase pkt s t) (h : Inv s) : Inv t.advancePc where
  pbuf_fits := how.pbuf_fits h.pbuf_fits
  latched_empty := how.latched_empty h.latched_empty
  err_legal := errOut_le _
  frames_consistent := how.frames_consistent h.pbuf_fits h.frames_consistent
  one_response_each := by
    rw [advancePc_responses, how.responses, advancePc_pc, how.pc_eq, List.length_append, h.one_response_each,
      List.length_singleton]

/-- The invariants do not speak of the events still to come. -/
theorem Inv.withInputs {s : State} (h : Inv s) (events : List PortEvent) : Inv (s.withInputs events) :=
  ⟨h.pbuf_fits, h.latched_empty, h.err_legal, h.frames_consistent, h.one_response_each⟩

theorem Inv.transportTake {s : State} (h : Inv s) : Inv (transportTake s) := by
  obtain ⟨hcfg, hpbuf, _, herr, hpc, _, hresponses⟩ := transportTake_other s
  refine ⟨?_, ?_, errOut_le _, ?_, ?_⟩
  · rw [State.cap, hcfg, hpbuf]
    exact h.pbuf_fits
  · rw [herr, hpbuf]
    exact h.latched_empty
  · rw [transportTake_emitted]
    exact h.frames_consistent
  · rw [hresponses, hpc]
    exact h.one_response_each

/-- Settles O17, by the cases of `StepCase`. -/
theorem invariantKeptByEveryStep : Obligations.InvariantKeptByEveryStep := by
  intro s t h hstep
  cases step_cases hstep with
  | idle _ => exact h
  | packet pkt rest u _ how => exact how.inv (h.withInputs rest)
  | reset rest _ => exact (invariantHoldsAfterReset s.cfg).withInputs rest
  | take rest _ => exact (h.withInputs rest).transportTake

/-- What every step keeps, whatever is pending, holds after every run. -/
theorem run_induction {P : State → Prop} (hinputs : ∀ s events, P s → P (s.withInputs events))
    (hstep : ∀ s t, P s → step s = .next t → P t) (events : List PortEvent) {s : State} (h : P s) :
    ∃ t, run events s = .next t ∧ P t := by
  refine ⟨_, run_eq events s, hinputs _ [] ?_⟩
  induction events generalizing s with
  | nil => exact h
  | cons e rest ih =>
    have hserved : step (s.withInputs (e :: s.inputs)) = .next (serveState e s) := (step_of_event rfl).trans (serve_eq e s)
    exact ih (hstep _ _ (hinputs s _ h) hserved)

/-- Settles O19: the invariants hold after reset and every step keeps them; ERR and TXQ are read off them. -/
theorem reachableStatesAreConsistent : Obligations.ReachableStatesAreConsistent := by
  intro cfg events
  obtain ⟨t, hrun, h⟩ := run_induction (fun s l h => Inv.withInputs h l) invariantKeptByEveryStep events
    (invariantHoldsAfterReset cfg)
  exact ⟨t, hrun, of_decide_eq_true h.pbuf_fits, h.latched_empty, errOut_mem t,
    fun f hf => h.frames_consistent f (List.mem_append_right t.sent hf)⟩

end Sys2Proof.Machine
end

section
/-! SUPPORT. Two runs side by side (R24, R48 (d), R267): the same packet does the same in two states that agree in what a
command reads, so blocks that differ in MAGIC, or in what the transport has taken, stay alike. -/

namespace Sys2Proof.Machine

/-- What one packet does in two states `s` and `u`: the same of the six things in both. -/
inductive SameCase (s u : State) : State → State → Prop where
  | latched : SameCase s u (s.respond .latched) (u.respond .latched)
  | faulted (c : FaultCode) : SameCase s u (s.faulted c) (u.faulted c)
  | appended (bytes : Bytes) : SameCase s u (s.appended bytes) (u.appended bytes)
  | framed (name : Bytes) : SameCase s u (s.framed name) (u.framed name)
  | cleared : SameCase s u s.cleared u.cleared
  | remagicked (m : BitVec 32) : SameCase s u (s.remagicked m) (u.remagicked m)

/-- Both outcomes go on, and in the same way. -/
def SameOutcome (s u : State) (x y : Result) : Prop := ∃ t v, x = .next t ∧ y = .next v ∧ SameCase s u t v

section SameCase

variable {s u : State}

/-- An append reads PBUF_CAP and PBUF only. -/
theorem append_same (hcfg : s.cfg = u.cfg) (hpbuf : s.pbuf = u.pbuf) (bytes : Bytes) :
    SameOutcome s u (append bytes s) (append bytes u) := by
  have hcap : s.cap = u.cap := congrArg (·.pbufCap.val) hcfg
  rcases append_cases bytes s with ⟨h, e⟩ | ⟨h, e⟩
  · exact ⟨_, _, e, append_of_fits (by rwa [← hcap, ← hpbuf]), .appended bytes⟩
  · exact ⟨_, _, e, append_of_overflow (by rwa [← hcap, ← hpbuf]), .faulted .overflow⟩

/-- A command reads PBUF_CAP and PBUF only to decide which of the things a command can do it does. -/
theorem exec_same (hcfg : s.cfg = u.cfg) (hpbuf : s.pbuf = u.pbuf) (i : Instr) :
    SameOutcome s u (exec i s) (exec i u) := by
  cases hr : i.rangeFault with
  | some c => exact ⟨_, _, exec_of_rangeFault hr s, exec_of_rangeFault hr u, .faulted c⟩
  | none =>
    cases ho : i.output with
    | some bytes =>
      rw [exec_of_output ho hr, exec_of_output ho hr]
      exact append_same hcfg hpbuf bytes
    | none =>
      cases i with
      | clr => exact ⟨_, _, rfl, rfl, .cleared⟩
      | setmagic m => exact ⟨_, _, rfl, rfl, .remagicked m⟩
      | frame name =>
        have hshort : name.length ≤ 12 := Nat.not_lt.mp fun hlong => nomatch (if_pos hlong).symm.trans hr
        exact ⟨_, _, exec_frame_of_le hshort s, exec_frame_of_le hshort u, .framed name⟩
      | _ => cases ho

/-- The body of a command cycle reads PBUF_CAP, PBUF and ERR only. -/
theorem commandBody_same (hcfg : s.cfg = u.cfg) (hpbuf : s.pbuf = u.pbuf) (herr : s.err = u.err) (pkt : Bytes) :
    SameOutcome s u (commandBody pkt s) (commandBody pkt u) := by
  by_cases free : s.err = none
  · have free' : u.err = none := herr ▸ free
    cases hd : decode pkt with
    | illegal => exact ⟨_, _, commandBody_illegal free hd, commandBody_illegal free' hd, .faulted .illegal⟩
    | malformed => exact ⟨_, _, commandBody_malformed free hd, commandBody_malformed free' hd, .faulted .malformed⟩
    | command i =>
      rw [commandBody_command free hd, commandBody_command free' hd]
      exact exec_same hcfg hpbuf i
  · have held : u.err ≠ none := herr ▸ free
    by_cases hpkt : pkt = clearPacket
    · subst hpkt
      exact ⟨_, _, commandBody_latched_clear free, commandBody_latched_clear held, .cleared⟩
    · exact ⟨_, _, commandBody_latched free hpkt, commandBody_latched held hpkt, .latched⟩

end SameCase

/-- Two blocks are alike: the same in all but MAGIC, which is related by `M`, the frames emitted, which are the same under
`view`, and which of them the transport has taken. -/
structure Alike (M : BitVec 32 → BitVec 32 → Prop) (view : Bytes → Bytes) (s u : State) : Prop where
  cfg : s.cfg = u.cfg
  pbuf : s.pbuf = u.pbuf
  err : s.err = u.err
  pc : s.pc = u.pc
  responses : s.responses = u.responses
  magic : M s.magic u.magic
  emitted : s.emitted.map view = u.emitted.map view

section Alike

variable {M : BitVec 32 → BitVec 32 → Prop} {view : Bytes → Bytes} {s u : State}

theorem Alike.trans {t : State} (hM : Equivalence M) (h : Alike M view s t) (h' : Alike M view t u) :
    Alike M view s u :=
  ⟨h.cfg.trans h'.cfg, h.pbuf.trans h'.pbuf, h.err.trans h'.err, h.pc.trans h'.pc, h.responses.trans h'.responses,
    hM.trans h.magic h'.magic, h.emitted.trans h'.emitted⟩

theorem Alike.symm (hM : Equivalence M) (h : Alike M view s u) : Alike M view u s :=
  ⟨h.cfg.symm, h.pbuf.symm, h.err.symm, h.pc.symm, h.responses.symm, hM.symm h.magic, h.emitted.symm⟩

/-- A block is like itself after the transport has taken a frame (R267). -/
theorem transportTake_alike (hM : Equivalence M) (s : State) : Alike M view (transportTake s) s := by
  obtain ⟨hcfg, hpbuf, hmagic, herr, hpc, _, hresponses⟩ := transportTake_other s
  exact ⟨hcfg, hpbuf, herr, hpc, hresponses, hmagic ▸ hM.refl s.magic, congrArg _ (transportTake_emitted s)⟩

theorem Alike.respond (h : Alike M view s u) (r : Response) : s.responses ++ [r] = u.responses ++ [r] :=
  congrArg (· ++ [r]) h.responses

variable (hM : Equivalence M)
  (hview : ∀ m n, M m n → ∀ name p, view (frameBytes m name p) = view (frameBytes n name p))

include hview in
/-- The frames that one FRAME adds in two alike blocks are the same under a view that does not tell related magics
apart. -/
theorem Alike.emitted_framed (h : Alike M view s u) (name : Bytes) :
    (s.framed name).emitted.map view = (u.framed name).emitted.map view := by
  have hs : (s.framed name).emitted = s.emitted ++ [frameBytes s.magic name s.pbuf] := (List.append_assoc _ _ _).symm
  have hu : (u.framed name).emitted = u.emitted ++ [frameBytes u.magic name u.pbuf] := (List.append_assoc _ _ _).symm
  rw [hs, hu, List.map_append, List.map_append, h.emitted, List.map_singleton, List.map_singleton, h.pbuf,
    hview _ _ h.magic]

include hM hview

/-- What one packet does keeps two blocks alike. -/
theorem SameCase.alike {t v : State} (how : SameCase s u t v) (h : Alike M view s u) : Alike M view t v := by
  cases how with
  | latched => exact { h with responses := h.respond _ }
  | faulted c => exact { h with pbuf := rfl, err := rfl, responses := h.respond _ }
  | appended bytes => exact { h with pbuf := congrArg (· ++ bytes) h.pbuf, responses := h.respond _ }
  | framed name => exact { h with pbuf := rfl, responses := h.respond _, emitted := h.emitted_framed hview name }
  | cleared => exact { h with pbuf := rfl, err := rfl, responses := h.respond _ }
  | remagicked m => exact { h with magic := hM.refl m, responses := h.respond _ }

/-- The same event keeps two blocks alike. -/
theorem Alike.after_event (h : Alike M view s u) (e : PortEvent) : Alike M view (serveState e s) (serveState e u) := by
  cases e with
  | packet pkt =>
    obtain ⟨t, v, ht, hv, how⟩ := commandBody_same h.cfg h.pbuf h.err pkt
    rw [serveState_packet ht, serveState_packet hv]
    have hafter := how.alike hM hview h
    exact { hafter with pc := congrArg (· + 1) hafter.pc }
  | resetInput => exact ⟨h.cfg, rfl, rfl, rfl, rfl, hM.refl _, rfl⟩
  | takeFrame => exact (transportTake_alike hM s).trans hM (h.trans hM ((transportTake_alike hM u).symm hM))

/-- The same events keep two blocks alike. -/
theorem Alike.after_events (h : Alike M view s u) (events : List PortEvent) :
    Alike M view (events.foldl (fun s e => serveState e s) s)
      (events.foldl (fun s e => serveState e s) u) := by
  induction events generalizing s u with
  | nil => exact h
  | cons e rest ih => exact ih (h.after_event hM hview e)

/-- Leaving out the transport's events keeps two blocks alike. -/
theorem Alike.after_events_without_takes (h : Alike M view s u) (events : List PortEvent) :
    Alike M view (events.foldl (fun s e => serveState e s) s)
      ((events.filter fun e => decide (e ≠ .takeFrame)).foldl (fun s e => serveState e s) u) := by
  induction events generalizing s u with
  | nil => exact h
  | cons e rest ih =>
    by_cases he : e = .takeFrame
    · subst he
      exact ih ((transportTake_alike hM s).trans hM h)
    · rw [List.filter_cons, if_pos (decide_eq_true he)]
      exact ih (h.after_event hM hview e)

end Alike

/-- Settles O22: two blocks with the same MAGIC and the same frames emitted stay so, event by event, whether or not the
transport's events are among them. -/
theorem transportScheduleIsInvisible : Obligations.TransportScheduleIsInvisible := by
  intro events s
  have hself : Alike Eq id s s := ⟨rfl, rfl, rfl, rfl, rfl, rfl, rfl⟩
  have h := hself.after_events_without_takes eq_equivalence (by rintro m _ rfl name p; rfl) events
  have hemitted := h.emitted
  rw [List.map_id, List.map_id] at hemitted
  exact ⟨_, _, run_eq _ _, run_eq _ _, hemitted, h.pbuf, h.magic, h.err, h.pc, h.responses, h.cfg⟩

/-- After its first four bytes a frame is the same for every magic (R191). -/
theorem frameBytes_drop_four (m n : BitVec 32) (name p : Bytes) :
    (frameBytes m name p).drop 4 = (frameBytes n name p).drop 4 := by
  simp only [frameBytes, List.append_assoc]
  rw [List.drop_left' (le_length 4 _), List.drop_left' (le_length 4 _)]

/-- Settles O51: two blocks with the same frames emitted from byte 4 on, whatever their MAGIC, stay so. -/
theorem magicReachesOnlyFrameHeads : Obligations.MagicReachesOnlyFrameHeads := by
  intro events s m
  have hstart : Alike (fun _ _ => True) (·.drop 4) s { s with magic := m } := ⟨rfl, rfl, rfl, rfl, rfl, trivial, rfl⟩
  have h := hstart.after_events ⟨fun _ => trivial, fun _ => trivial, fun _ _ => trivial⟩
    (fun m n _ => frameBytes_drop_four m n) events
  exact ⟨_, _, run_eq _ _, run_eq _ _, h.emitted, h.pbuf, h.err, h.pc, h.responses⟩

end Sys2Proof.Machine
end

section
/-! SUPPORT. Byte order and the checksum unit (section 6 of 00_scope.md; 40_primitive_codec.md; 42_checksum.md): signed
numbers as words, values and their bytes, the checksum's bytes on the wire and the hash's padding. -/

namespace Sys2Proof

open Machine

/-- The two's-complement pattern of a number is the word that stands for it (G4, log entry 10). -/
theorem twos_eq_toNat_ofInt (w : Nat) (i : Int) : twos w i = (BitVec.ofInt w i).toNat := by
  rw [BitVec.toNat_ofInt, twos, Nat.cast_pow, Nat.cast_ofNat]

/-- The packet of WI32 in bits (R62, R104). -/
theorem encode_wi32_eq_wire (i : Int) : encode (.wi32 i) = Op.wi32.code :: wireBE 4 (BitVec.ofInt 32 i) := by
  rw [encode, encodeFields, twos_eq_toNat_ofInt, be_toNat_eq_wireBE, Instr.op]

/-- The packet of WI64 in bits (R62, R105). -/
theorem encode_wi64_eq_wire (i : Int) : encode (.wi64 i) = Op.wi64.code :: wireBE 8 (BitVec.ofInt 64 i) := by
  rw [encode, encodeFields, twos_eq_toNat_ofInt, be_toNat_eq_wireBE, Instr.op]

/-- WI32 is WU32 of the pattern (R104). -/
theorem exec_wi32_eq_wu32 (i : Int) : exec (.wi32 i) = exec (.wu32 (BitVec.ofInt 32 i)) :=
  congrArg (fun v => append (le 4 v)) (twos_eq_toNat_ofInt 32 i)

/-- WI64 is WU64 of the pattern (R105). -/
theorem exec_wi64_eq_wu64 (i : Int) : exec (.wi64 i) = exec (.wu64 (BitVec.ofInt 64 i)) :=
  congrArg (fun v => append (le 8 v)) (twos_eq_toNat_ofInt 64 i)

/-- Settles O33: the command is WU32 of the pattern, whose rule gives the effect. -/
theorem wi32Rule : Obligations.Wi32Rule := by
  intro i s _ hfree
  obtain ⟨_, hfits, hover⟩ := wu32Rule (BitVec.ofInt 32 i) s hfree
  rw [exec_wi32_eq_wu32]
  exact ⟨encode_wi32_eq_wire i, hfits, hover, rfl⟩

/-- Settles O34: the command is WU64 of the pattern, whose rule gives the effect. -/
theorem wi64Rule : Obligations.Wi64Rule := by
  intro i s _ hfree
  obtain ⟨_, hfits, hover⟩ := wu64Rule (BitVec.ofInt 64 i) s hfree
  rw [exec_wi64_eq_wu64]
  exact ⟨encode_wi64_eq_wire i, hfits, hover, rfl⟩

/-- Reading the n bytes of a pattern signed gives the number back, where the n bytes are the pattern's width. -/
theorem readSignedLE_le_twos {n w : Nat} {i : Int} (hw : 8 * n = w) (hpos : 0 < w) (h : InSigned w i) :
    readSignedLE (le n (twos w i)) = i := by
  have hlt : twos w i < 256 ^ n := by
    rw [show 256 = 2 ^ 8 from rfl, ← pow_mul, hw]
    exact twos_lt w i
  rw [readSignedLE, le_length, hw, leDec_le hlt, signed_twos hpos h]

/-- Settles O46: unsigned by the inverse readings of both orders, signed by reading a pattern undoing taking it. -/
theorem byteOrderRoundTrips : Obligations.ByteOrderRoundTrips :=
  ⟨fun _ _ h => ⟨leDec_le h, beDec_be h⟩, fun s => ⟨le_leDec s, be_beDec s⟩,
    fun _ => readSignedLE_le_twos rfl (by decide), fun _ => readSignedLE_le_twos rfl (by decide)⟩

/-- Settles O42, by the checksum being the reading of the four digest bytes. -/
theorem checksumBytesAreDigestBytes : Obligations.ChecksumBytesAreDigestBytes := fun s =>
  (le_toNat_eq_wireLE 4 (checksum s)).symm.trans (le_checksum s)

/-- Settles O44, by running the hash. -/
theorem hashOfAbc : Obligations.HashOfAbc := by
  unfold Obligations.HashOfAbc
  decide +kernel

/-- The zeros of the padding are the least number that makes the whole a multiple of 64 bytes (R139). -/
theorem zeroCount_le {len y : Nat} (h : 64 ∣ len + 1 + y + 8) : Sha256.zeroCount len ≤ y := by
  rw [Sha256.zeroCount]
  omega

/-- Settles O45: the length by `Sha256.pad_length`, the zeros by their count's arithmetic modulo 64. -/
theorem paddingIsLeast : Obligations.PaddingIsLeast := fun m =>
  ⟨Sha256.zeroCount m.length, rfl, Dvd.intro _ (Sha256.pad_length m).symm,
    Nat.le_of_lt_succ (Nat.mod_lt _ (by decide)), fun _ => zeroCount_le⟩

end Sys2Proof
end

section
/-! SUPPORT. What the commands leave unchanged (R45 of 20_memory.md), and the user agent (R153 of 43_varlen_fields.md). -/

namespace Sys2Proof

open Machine

/-- An append that goes on has one of its two outcomes (R41). -/
theorem appended_or_overflowed {bytes : Bytes} {s t : State} (h : append bytes s = .next t) :
    t = s.appended bytes ∨ t = s.faulted .overflow := by
  rcases append_cases bytes s with ⟨_, e⟩ | ⟨_, e⟩
  · exact .inl (Host.Outcome.next.inj (h.symm.trans e))
  · exact .inr (Host.Outcome.next.inj (h.symm.trans e))

/-- An appending command appends its output or enters a fault. -/
theorem exec_appends_or_faults {i : Instr} {bytes : Bytes} {s t : State} (ho : i.output = some bytes)
    (run : exec i s = .next t) : t = s.appended bytes ∨ ∃ c, t = s.faulted c := by
  cases hr : i.rangeFault with
  | some c => exact .inr ⟨c, Host.Outcome.next.inj (run.symm.trans (exec_of_rangeFault hr s))⟩
  | none =>
    rw [exec_of_output ho hr] at run
    exact (appended_or_overflowed run).imp_right fun h => ⟨_, h⟩

/-- An append changes no byte outside the addresses it stores to (R41). -/
theorem readByte_appended_outside {s : State} {bytes : Bytes} {a : Nat}
    (h : ¬(s.pbuf.length ≤ a ∧ a < s.pbuf.length + bytes.length)) : (s.appended bytes).readByte a = s.readByte a := by
  rcases Nat.lt_or_ge a s.pbuf.length with ha | ha
  · exact readByte_appended ha
  · have hbeyond : s.pbuf.length + bytes.length ≤ a := Nat.le_of_not_lt fun hlt => h ⟨ha, hlt⟩
    rw [State.readByte, State.readByte, appended_pbuf, List.getElem?_eq_none (by rwa [List.length_append]),
      List.getElem?_eq_none ha]

/-- Settles O28: the command appends its output, whose length R45's table gives, or enters a fault. -/
theorem appendingCommandsFrame : Obligations.AppendingCommandsFrame := by
  intro i n s t hwf hn run
  rw [← Instr.output_length hwf, Option.map_eq_some_iff] at hn
  obtain ⟨bytes, ho, rfl⟩ := hn
  rcases exec_appends_or_faults ho run with rfl | ⟨c, rfl⟩
  · exact ⟨rfl, rfl, rfl, rfl, rfl, rfl, .inl ⟨rfl, rfl, List.length_append, fun _ => readByte_appended_outside⟩⟩
  · exact ⟨rfl, rfl, rfl, rfl, rfl, rfl, .inr ⟨c, rfl, rfl, rfl⟩⟩

/-- FRAME has two outcomes: the frame goes out, or the name is too long (R190). -/
theorem exec_frame_cases {name : Bytes} {s t : State} (run : exec (.frame name) s = .next t) :
    t = s.framed name ∨ t = s.faulted .cmdName := by
  rcases Nat.lt_or_ge 12 name.length with hlong | hshort
  · exact .inr (Host.Outcome.next.inj (run.symm.trans (exec_of_rangeFault (i := .frame name) (if_pos hlong) s)))
  · exact .inl (Host.Outcome.next.inj (run.symm.trans (exec_frame_of_le hshort s)))

/-- Settles O29, by the outcomes of the three commands. -/
theorem framingAndControlFrame : Obligations.FramingAndControlFrame := by
  refine fun s t => ⟨fun name run => ?_, fun run => ?_, fun m run => ?_⟩
  · rcases exec_frame_cases run with rfl | rfl
    · exact ⟨rfl, rfl, rfl, rfl, rfl, rfl, .inl ⟨rfl, List.take_left⟩⟩
    · exact ⟨rfl, rfl, rfl, rfl, rfl, rfl, .inr ⟨rfl, rfl⟩⟩
  · cases run
    exact ⟨rfl, rfl, rfl, rfl, rfl, rfl, rfl, rfl⟩
  · cases run
    exact ⟨rfl, rfl, rfl, rfl, rfl, rfl, rfl, fun _ => rfl⟩

/-- What UAG appends: the length byte counts the delimiters (R153). -/
theorem lengthPrefixed_userAgent (text : Bytes) :
    lengthPrefixed (userAgent text) = [BitVec.ofNat 8 (text.length + 2), 0x2F#8] ++ text ++ [0x2F#8] := by
  rw [lengthPrefixed, userAgent_length]
  rfl

theorem lengthPrefixed_userAgent_length (text : Bytes) :
    (lengthPrefixed (userAgent text)).length = text.length + 3 := by
  rw [lengthPrefixed_length, userAgent_length]
  omega

/-- UAG of a text of at most 253 bytes is one append of the length byte and the delimited text (R150, R153). -/
theorem exec_uag_spec {text : Bytes} (h : text.length ≤ 253) (s : State) :
    AppendsOrOverflows (exec (.uag text) s) s (lengthPrefixed (userAgent text)) :=
  exec_output_spec (i := .uag text) rfl (if_neg (by omega)) s

/-- Settles O38: the packet by its length fitting in 16 bits, a text in range by the two outcomes of an append, a longer
one by the range check, the last clause by the length that the packet announces. -/
theorem uagRule : Obligations.UagRule := by
  refine ⟨fun text s hlen _ => ⟨?_, fun hmax => ?_, fun hmax => ?_, fun hlong => ?_⟩,
    fun _ _ => decode_FV16_malformed (o := .uag) rfl⟩
  · exact congrArg (0x31#8 :: · ++ text) (be_eq_wireBE_of_lt 2 hlen)
  · rw [Nat.add_assoc, ← lengthPrefixed_userAgent_length, ← lengthPrefixed_userAgent]
    exact (exec_uag_spec hmax s).1
  · rw [Nat.add_assoc, ← lengthPrefixed_userAgent_length]
    exact (exec_uag_spec hmax s).2
  · exact exec_of_rangeFault (i := .uag text) (if_pos (by omega)) s

end Sys2Proof
end

section
/-! SUPPORT. Running the expansion of a pseudo-instruction (44_payload_macros.md): its appending commands lay their outputs
end to end, and the FRAME of a message sends them. -/

namespace Sys2Proof

open Machine

/-- A command that a packet can carry, whose operands are in range and whose output is `bytes`. -/
structure Instr.Appends (i : Instr) (bytes : Bytes) : Prop where
  wellFormed : i.WellFormed
  inRange : i.rangeFault = none
  output : i.output = some bytes

end Sys2Proof

namespace Sys2Proof.Machine

/-- The state after `n` appending commands in a row have put these bytes into PBUF, every response OK. -/
def State.built (s : State) (n : Nat) (bytes : Bytes) : State :=
  { s with pbuf := s.pbuf ++ bytes, pc := s.pc + n, responses := s.responses ++ List.replicate n .ok }

theorem built_zero (s : State) : s.built 0 [] = s := by
  simp [State.built]

/-- One more command first. -/
theorem appended_built (s : State) (n : Nat) (bytes more : Bytes) :
    (s.appended bytes).advancePc.built n more = s.built (n + 1) (bytes ++ more) := by
  simp only [State.built, State.appended, State.advancePc, List.append_assoc, List.replicate_succ, List.singleton_append,
    Nat.add_assoc, Nat.add_comm 1 n]

/-- A packet of a well-formed command runs the command, where no fault is latched. -/
theorem serveState_encode {i : Instr} {s t : State} (hwf : i.WellFormed) (free : s.err = none)
    (run : exec i s = .next t) : serveState (.packet (encode i)) s = t.advancePc :=
  serveState_packet ((commandBody_command free (decode_encode hwf)).trans run)

theorem packetsOf_append (first rest : List Instr) : packetsOf (first ++ rest) = packetsOf first ++ packetsOf rest :=
  List.map_append

/-- Appending commands in a row lay their outputs end to end at the end of PBUF, where all of them fit. -/
theorem foldl_appends {commands : List Instr} {outputs : List Bytes}
    (h : List.Forall₂ Instr.Appends commands outputs) {s : State} (free : s.err = none)
    (hfits : s.pbuf.length + outputs.flatten.length ≤ s.cap) :
    (packetsOf commands).foldl (fun s e => serveState e s) s = s.built commands.length outputs.flatten := by
  induction h generalizing s with
  | nil => exact (built_zero s).symm
  | @cons i bytes rest more hi _ ih =>
    rw [List.flatten_cons, List.length_append] at hfits
    have hexec : exec i s = .next (s.appended bytes) :=
      (exec_output_spec hi.output hi.inRange s).1 (by omega)
    have hrest := ih (s := (s.appended bytes).advancePc) free
      (by rw [advancePc_pbuf, appended_pbuf, List.length_append, advancePc_cap, appended_cap]; omega)
    rw [packetsOf, List.map_cons, List.foldl_cons, serveState_encode hi.wellFormed free hexec]
    exact hrest.trans (appended_built s rest.length bytes more.flatten)

/-- The appending commands of an expansion: all but the FRAME of a message. -/
def Pseudo.build : Pseudo → List Instr
  | .encVersion p => expandHandshake p
  | .encVerack => []
  | .encGetdata records => [.invv records]
  | .msgVersion p => expandHandshake p
  | .msgVerack => []
  | .msgGetdata records => [.invv records]

/-- An expansion is its appending commands, and the FRAME of its name where it is a message (R174 to R176). -/
theorem Pseudo.expand_eq (p : Pseudo) : p.expand = p.build ++ p.messageName.toList.map .frame := by
  cases p <;> rfl

/-- The fields of a version payload, one for each command of its expansion (R170, R171). -/
def handshakeOutputs (p : Handshake) : List Bytes :=
  [le 4 (twos 32 p.protocolVersion), le 8 p.services.toNat, le 8 (twos 64 p.timestamp),
    encodeAddress p.addressReceiving, encodeAddress p.addressFrom, le 8 p.nonce.toNat,
    lengthPrefixed (userAgent p.userAgent), le 4 (twos 32 p.startHeight)]

/-- `encodeHandshake` lays the outputs of its expansion's commands end to end, where the user agent is in range (R178). -/
theorem encodeHandshake_of_le {p : Handshake} (h : p.userAgent.length ≤ 253) :
    encodeHandshake p = some (handshakeOutputs p).flatten := by
  rw [encodeHandshake, if_pos h]
  simp [handshakeOutputs, lengthPrefixed_userAgent]

/-- `encodeInventoryRequest` is the output of its one command, where the count is in range (R178). -/
theorem encodeInventoryRequest_of_le {records : List InvRecord} (h : records.length ≤ 255) :
    encodeInventoryRequest records = some (inventoryVector records) := by
  rw [encodeInventoryRequest, if_pos h, ← List.flatMap_def]
  rfl

theorem handshake_appends {p : Handshake} (hwf : ∀ i ∈ expandHandshake p, i.WellFormed)
    (h : p.userAgent.length ≤ 253) : List.Forall₂ Instr.Appends (expandHandshake p) (handshakeOutputs p) := by
  simp only [expandHandshake, List.forall_mem_cons] at hwf
  obtain ⟨h0, h1, h2, h3, h4, h5, h6, h7, _⟩ := hwf
  exact .cons ⟨h0, rfl, rfl⟩ <| .cons ⟨h1, rfl, rfl⟩ <| .cons ⟨h2, rfl, rfl⟩ <| .cons ⟨h3, rfl, rfl⟩ <|
    .cons ⟨h4, rfl, rfl⟩ <| .cons ⟨h5, rfl, rfl⟩ <| .cons ⟨h6, if_neg (by omega), rfl⟩ <| .cons ⟨h7, rfl, rfl⟩ .nil

theorem records_appends {records : List InvRecord} (hwf : (Instr.invv records).WellFormed) (h : records.length ≤ 255) :
    List.Forall₂ Instr.Appends [.invv records] [inventoryVector records] :=
  .cons ⟨hwf, if_neg (Nat.not_lt.mpr h), rfl⟩ .nil

theorem encodeHandshake_appends {p : Handshake} {payload : Bytes} (hwf : ∀ i ∈ expandHandshake p, i.WellFormed)
    (h : encodeHandshake p = some payload) :
    ∃ outputs, List.Forall₂ Instr.Appends (expandHandshake p) outputs ∧ outputs.flatten = payload := by
  obtain ⟨hle, _⟩ := Option.ite_none_right_eq_some.mp h
  exact ⟨_, handshake_appends hwf hle, Option.some.inj ((encodeHandshake_of_le hle).symm.trans h)⟩

theorem encodeInventoryRequest_appends {records : List InvRecord} {payload : Bytes}
    (hwf : ∀ i ∈ [Instr.invv records], i.WellFormed) (h : encodeInventoryRequest records = some payload) :
    ∃ outputs, List.Forall₂ Instr.Appends [.invv records] outputs ∧ outputs.flatten = payload := by
  obtain ⟨hle, _⟩ := Option.ite_none_right_eq_some.mp h
  refine ⟨_, records_appends (hwf _ (List.mem_singleton_self _)) hle, ?_⟩
  rw [List.flatten_singleton]
  exact Option.some.inj ((encodeInventoryRequest_of_le hle).symm.trans h)

theorem Pseudo.wellFormed_of_mem {p : Pseudo} (h : p.wellFormed = true) : ∀ i ∈ p.expand, i.WellFormed :=
  List.all_eq_true.mp h

theorem Pseudo.build_wellFormed {p : Pseudo} (h : p.wellFormed = true) : ∀ i ∈ p.build, i.WellFormed := fun i hi =>
  Pseudo.wellFormed_of_mem h i (p.expand_eq ▸ List.mem_append_left _ hi)

/-- Where BNP's function is defined, its value is the outputs of the expansion's appending commands end to end (R178). -/
theorem Pseudo.build_appends {p : Pseudo} {payload : Bytes} (hwf : p.wellFormed = true) (h : p.payload = some payload) :
    ∃ outputs, List.Forall₂ Instr.Appends p.build outputs ∧ outputs.flatten = payload := by
  have hbuild := Pseudo.build_wellFormed hwf
  cases p with
  | encVersion p => exact encodeHandshake_appends hbuild h
  | encVerack => exact ⟨[], .nil, Option.some.inj h⟩
  | encGetdata records => exact encodeInventoryRequest_appends hbuild h
  | msgVersion p => exact encodeHandshake_appends hbuild h
  | msgVerack => exact ⟨[], .nil, Option.some.inj h⟩
  | msgGetdata records => exact encodeInventoryRequest_appends hbuild h

/-- From an empty PBUF with room, the appending commands of an expansion leave BNP's payload in PBUF. -/
theorem foldl_build {p : Pseudo} {payload : Bytes} {s : State} (hwf : p.wellFormed = true)
    (h : p.payload = some payload) (hempty : s.pbuf = []) (free : s.err = none) (hfits : payload.length ≤ s.cap) :
    (packetsOf p.build).foldl (fun s e => serveState e s) s = s.built p.build.length payload := by
  obtain ⟨outputs, happends, rfl⟩ := Pseudo.build_appends hwf h
  exact foldl_appends happends free (by rwa [hempty, List.length_nil, Nat.zero_add])

/-- Settles O54: an encoder is appending commands only. -/
theorem encoderExpansionBuildsPayload : Obligations.EncoderExpansionBuildsPayload := by
  intro p payload s hwf hname h hempty free hfits
  have hexpand : p.expand = p.build := by
    rw [p.expand_eq, hname, Option.toList_none, List.map_nil, List.append_nil]
  rw [hexpand, run_eq, foldl_build hwf h hempty free hfits, State.built, hempty]
  rfl

theorem Pseudo.messageName_length {p : Pseudo} {name : Bytes} (h : p.messageName = some name) : name.length ≤ 12 := by
  cases p with
  | msgVersion _ => cases h; decide
  | msgVerack => cases h; decide
  | msgGetdata _ => cases h; decide
  | _ => cases h

/-- BNP's frame is the block's, for a name and a payload that fit their fields (R178, R190): both take the checksum bytes
in digest order. -/
theorem frameReference_of_le {name payload : Bytes} (magic : BitVec 32) (hname : name.length ≤ 12)
    (hpayload : payload.length ≤ 2 ^ 32 - 1) :
    frameReference magic name payload = some (frameBytes magic name payload) := by
  rw [frameReference, if_pos ⟨hname, hpayload⟩, frameBytes, le_checksum]
  rfl

/-- A FRAME after `n` appending commands sends their bytes and leaves PBUF empty again (R190). -/
theorem framed_built {s : State} (hempty : s.pbuf = []) (n : Nat) (name payload : Bytes) :
    ((s.built n payload).framed name).advancePc = { s with
      txq := s.txq ++ [frameBytes s.magic name payload], pc := s.pc + (n + 1),
      responses := s.responses ++ List.replicate (n + 1) .ok } := by
  simp [State.built, State.framed, State.advancePc, hempty, List.replicate_succ', Nat.add_assoc]

/-- Settles O55: the appending commands build the payload, and the FRAME that follows them sends it. -/
theorem messageExpansionEmitsFrame : Obligations.MessageExpansionEmitsFrame := by
  intro p name payload s hwf hname h hempty free hfits
  have hshort := Pseudo.messageName_length hname
  have hexpand : p.expand = p.build ++ [.frame name] := by
    rw [p.expand_eq, hname, Option.toList_some, List.map_singleton]
  have hframe : (Instr.frame name).WellFormed :=
    Pseudo.wellFormed_of_mem hwf _ (hexpand ▸ List.mem_append_right _ (List.mem_singleton_self _))
  have hsent : (packetsOf [.frame name]).foldl (fun s e => serveState e s) (s.built p.build.length payload) =
      ((s.built p.build.length payload).framed name).advancePc :=
    serveState_encode hframe free (exec_frame_of_le hshort _)
  refine ⟨_, frameReference_of_le s.magic hshort (hfits.trans (Nat.le_pred_of_lt s.cfg.pbufCap.isLt)), ?_⟩
  rw [run_eq, hexpand, packetsOf_append, List.foldl_append, foldl_build hwf h hempty free hfits, hsent,
    framed_built hempty, List.length_append, List.length_singleton]
  rfl

end Sys2Proof.Machine
end

section
/-! SUPPORT. Failing closed across an expansion (R178, R179 of 44_payload_macros.md): one command out of range leaves the
block latched, and nothing is sent. -/

namespace Sys2Proof.Machine

/-- The block is latched with PBUF empty, and since `s` nothing was sent and MAGIC was not written. -/
structure FailedClosed (s t : State) : Prop where
  latched : t.err ≠ none
  empty : t.pbuf = []
  txq : t.txq = s.txq
  sent : t.sent = s.sent
  magic : t.magic = s.magic

/-- A fault fails closed (R224). -/
theorem faulted_failedClosed (c : FaultCode) (s : State) : FailedClosed s (s.faulted c).advancePc :=
  ⟨nofun, rfl, rfl, rfl, rfl⟩

/-- Only CLR has the packet that a latched block executes (R226). -/
theorem encode_ne_clearPacket {i : Instr} (hwf : i.WellFormed) (h : i ≠ .clr) : encode i ≠ clearPacket := fun e =>
  h (encode_injective (j := .clr) hwf rfl e)

/-- Packets of commands other than CLR leave a block that failed closed so. -/
theorem FailedClosed.foldl {s t : State} (h : FailedClosed s t) {commands : List Instr}
    (hall : ∀ i ∈ commands, i.WellFormed ∧ i ≠ .clr) :
    FailedClosed s ((packetsOf commands).foldl (fun s e => serveState e s) t) := by
  induction commands generalizing t with
  | nil => exact h
  | cons i rest ih =>
    obtain ⟨⟨hwf, hclr⟩, hrest⟩ := List.forall_mem_cons.mp hall
    have hserved : serveState (.packet (encode i)) t = (t.respond .latched).advancePc :=
      serveState_packet (commandBody_latched h.latched (encode_ne_clearPacket hwf hclr))
    rw [packetsOf, List.map_cons, List.foldl_cons, hserved]
    exact ih ⟨h.latched, h.empty, h.txq, h.sent, h.magic⟩ hrest

theorem ne_clr_of_output {i : Instr} (h : i.output ≠ none) : i ≠ .clr := fun e => h (e ▸ rfl)

/-- Appending commands one of which is out of range fail closed: at that command, or before it by an overflow. -/
theorem foldl_failsClosed {commands : List Instr} (hall : ∀ i ∈ commands, i.WellFormed ∧ i.output ≠ none)
    (hbad : ∃ j ∈ commands, j.rangeFault ≠ none) {s : State} (free : s.err = none) :
    FailedClosed s ((packetsOf commands).foldl (fun s e => serveState e s) s) := by
  induction commands generalizing s with
  | nil => simp at hbad
  | cons i rest ih =>
    obtain ⟨⟨hwf, hout⟩, hrest⟩ := List.forall_mem_cons.mp hall
    rw [packetsOf, List.map_cons, List.foldl_cons]
    have hfault : ∀ c, exec i s = .next (s.faulted c) → FailedClosed s
        ((packetsOf rest).foldl (fun s e => serveState e s) (serveState (.packet (encode i)) s)) := fun c run => by
      rw [serveState_encode hwf free run]
      exact (faulted_failedClosed c s).foldl fun j hj => ⟨(hrest j hj).1, ne_clr_of_output (hrest j hj).2⟩
    cases hr : i.rangeFault with
    | some c => exact hfault c (exec_of_rangeFault hr s)
    | none =>
      obtain ⟨bytes, ho⟩ := Option.ne_none_iff_exists'.mp hout
      obtain ⟨t, run, _⟩ := exec_execCase i s
      rcases exec_appends_or_faults ho run with rfl | ⟨c, rfl⟩
      · have hbad' : ∃ j ∈ rest, j.rangeFault ≠ none := by simpa [hr] using hbad
        rw [serveState_encode hwf free run]
        have h := ih hrest hbad' (s := (s.appended bytes).advancePc) free
        exact ⟨h.latched, h.empty, h.txq, h.sent, h.magic⟩
      · exact hfault c run

theorem Pseudo.build_output (p : Pseudo) : ∀ i ∈ p.build, i.output ≠ none := by
  cases p <;> simp [Pseudo.build, expandHandshake, NetworkAddress.command, Instr.output]

theorem encodeHandshake_outOfRange {p : Handshake} (h : encodeHandshake p = none) :
    ∃ j ∈ expandHandshake p, j.rangeFault ≠ none := by
  have hlong : ¬p.userAgent.length ≤ 253 := fun hle => nomatch (encodeHandshake_of_le hle).symm.trans h
  have hfault : (Instr.uag p.userAgent).rangeFault = some .fieldLen := if_pos (by omega)
  exact ⟨.uag p.userAgent, by simp [expandHandshake], by simp [hfault]⟩

theorem encodeInventoryRequest_outOfRange {records : List InvRecord} (h : encodeInventoryRequest records = none) :
    ∃ j ∈ [Instr.invv records], j.rangeFault ≠ none := by
  have hmany : ¬records.length ≤ 255 := fun hle => nomatch (encodeInventoryRequest_of_le hle).symm.trans h
  have hfault : (Instr.invv records).rangeFault = some .invCount := if_pos (Nat.lt_of_not_le hmany)
  exact ⟨.invv records, List.mem_singleton_self _, by simp [hfault]⟩

/-- Where BNP's function is undefined, one appending command of the expansion is out of range (R178). -/
theorem Pseudo.build_outOfRange {p : Pseudo} (h : p.payload = none) : ∃ j ∈ p.build, j.rangeFault ≠ none := by
  cases p with
  | encVersion p => exact encodeHandshake_outOfRange h
  | encVerack => cases h
  | encGetdata records => exact encodeInventoryRequest_outOfRange h
  | msgVersion p => exact encodeHandshake_outOfRange h
  | msgVerack => cases h
  | msgGetdata records => exact encodeInventoryRequest_outOfRange h

/-- Settles O56: the appending commands fail closed, and the FRAME of a message leaves the block so. -/
theorem failingExpansionEmitsNothing : Obligations.FailingExpansionEmitsNothing := by
  intro p s hwf h free
  have hbuild := foldl_failsClosed (fun i hi => ⟨Pseudo.build_wellFormed hwf i hi, p.build_output i hi⟩)
    (Pseudo.build_outOfRange h) free
  have hframe : ∀ i ∈ p.messageName.toList.map Instr.frame, i.WellFormed ∧ i ≠ .clr := by
    intro i hi
    refine ⟨Pseudo.wellFormed_of_mem hwf i (p.expand_eq ▸ List.mem_append_right _ hi), ?_⟩
    obtain ⟨name, _, rfl⟩ := List.mem_map.mp hi
    nofun
  have hclosed := hbuild.foldl hframe
  rw [← List.foldl_append, ← packetsOf_append, ← p.expand_eq] at hclosed
  exact ⟨_, run_eq _ _, hclosed.latched, hclosed.empty, hclosed.txq, hclosed.sent, hclosed.magic⟩

end Sys2Proof.Machine
end

section
/-! SUPPORT. The layout of a version payload (R171 of 44_payload_macros.md): its nine fields in bits, laid end to end. -/

namespace Sys2Proof.Machine

/-- A field of fields laid end to end stands where the lengths of the fields before it add up to. -/
theorem slice_field {fields : List Bytes} {field : Bytes} {lengths : List Nat} {i j n : Nat}
    (hlengths : fields.map List.length = lengths) (k : Nat) (hk : fields[k]? = some field) (hn : lengths[k]? = some n)
    (hi : (lengths.take k).sum = i) (hj : i + n = j) : slice fields.flatten i j = field := by
  have hlen : field.length = n := by
    rw [← hlengths, List.getElem?_map, hk] at hn
    exact Option.some.inj hn
  obtain ⟨hlt, hget⟩ := List.getElem?_eq_some_iff.mp hk
  have hsplit : fields.flatten = (fields.take k).flatten ++ (field ++ (fields.drop (k + 1)).flatten) := by
    rw [← List.flatten_cons, ← List.flatten_append, ← hget, ← List.drop_eq_getElem_cons hlt, List.take_append_drop]
  have hbefore : (fields.take k).flatten.length = i := by
    rw [List.length_flatten, List.map_take, hlengths, hi]
  rw [hsplit, slice_append hbefore (hlen ▸ hj)]

/-- The record of an address in bits (R120, R178). -/
theorem encodeAddress_eq_wire (a : NetworkAddress) :
    encodeAddress a = wireLE 8 a.services ++ a.address ++ wireBE 2 a.port := by
  rw [encodeAddress, le_toNat_eq_wireLE, be_toNat_eq_wireBE]

/-- A number's pattern in n bytes is the word that stands for it. -/
theorem le_twos_eq_wireLE (n w : Nat) (i : Int) : le n (twos w i) = wireLE n (BitVec.ofInt w i) := by
  rw [twos_eq_toNat_ofInt, le_toNat_eq_wireLE]

/-- The nine fields of a version payload, in bits (R171). -/
def versionFields (p : Handshake) : List Bytes :=
  [wireLE 4 (BitVec.ofInt 32 p.protocolVersion), wireLE 8 p.services, wireLE 8 (BitVec.ofInt 64 p.timestamp),
    wireLE 8 p.addressReceiving.services ++ p.addressReceiving.address ++ wireBE 2 p.addressReceiving.port,
    wireLE 8 p.addressFrom.services ++ p.addressFrom.address ++ wireBE 2 p.addressFrom.port,
    wireLE 8 p.nonce, [BitVec.ofNat 8 (p.userAgent.length + 2)], [0x2F#8] ++ p.userAgent ++ [0x2F#8],
    wireLE 4 (BitVec.ofInt 32 p.startHeight)]

theorem encodeHandshake_eq_versionFields {p : Handshake} {b : Bytes} (h : encodeHandshake p = some b) :
    b = (versionFields p).flatten := by
  obtain ⟨_, hb⟩ := Option.ite_none_right_eq_some.mp h
  rw [← Option.some.inj hb]
  simp [versionFields, le_twos_eq_wireLE, le_toNat_eq_wireLE, encodeAddress_eq_wire]

@[simp] theorem wireLE_length {w : Nat} (n : Nat) (v : BitVec w) : (wireLE n v).length = n := by simp [wireLE]

@[simp] theorem wireBE_length {w : Nat} (n : Nat) (v : BitVec w) : (wireBE n v).length = n := by simp [wireBE]

/-- The lengths of the nine fields: 85 bytes and the transmitted user agent (R171). -/
theorem versionFields_lengths {p : Handshake} (h : (Pseudo.encVersion p).wellFormed = true) :
    (versionFields p).map List.length = [4, 8, 8, 26, 26, 8, 1, p.userAgent.length + 2, 4] := by
  have hwf := Pseudo.wellFormed_of_mem h
  have hreceiving : p.addressReceiving.address.length = 16 :=
    of_decide_eq_true (hwf p.addressReceiving.command (by simp [Pseudo.expand, expandHandshake]))
  have hfrom : p.addressFrom.address.length = 16 :=
    of_decide_eq_true (hwf p.addressFrom.command (by simp [Pseudo.expand, expandHandshake]))
  simp [versionFields, hreceiving, hfrom]

/-- Settles O57: each field stands where the lengths of the fields before it add up to. -/
theorem versionPayloadLayout : Obligations.VersionPayloadLayout := by
  intro p b hwf h
  have hlengths := versionFields_lengths hwf
  have hagent : ([4, 8, 8, 26, 26, 8, 1, p.userAgent.length + 2] : List Nat).sum = 81 + (p.userAgent.length + 2) := by
    simp only [List.sum_cons, List.sum_nil]
    omega
  obtain rfl := encodeHandshake_eq_versionFields h
  refine ⟨?length, slice_field hlengths 0 rfl rfl rfl rfl, slice_field hlengths 1 rfl rfl rfl rfl,
    slice_field hlengths 2 rfl rfl rfl rfl, slice_field hlengths 3 rfl rfl rfl rfl,
    slice_field hlengths 4 rfl rfl rfl rfl, slice_field hlengths 5 rfl rfl rfl rfl,
    slice_field hlengths 6 rfl rfl rfl rfl, slice_field hlengths 7 rfl rfl rfl rfl,
    slice_field hlengths 8 rfl rfl hagent (by omega)⟩
  case length =>
    rw [List.length_flatten, hlengths]
    simp only [List.sum_cons, List.sum_nil]
    omega

end Sys2Proof.Machine
end
